-- ==== Sys2Proof/Word.lean ====
section
/-! DEFINITION. The widths of the block's values: the 32-bit command and status word, the 8-bit byte,
the 16-bit two's-complement sample (10_state.md R23 to R29; 20_memory.md R51 to R54). -/

namespace Sys2Proof

/-- A command word or a status word, one parallel 32-bit value (R51, R54; `CMD_W` of R8). -/
abbrev Word := BitVec 32

/-- One element of DOUT or TOUT, and the operand of ENC_BYTE and TRC_BYTE; bit 7 is the most significant (R53). -/
abbrev Byte := BitVec 8

/-- A sample at a port: a 16-bit two's-complement integer (R11, R52; `SAMPLE_W` of R8). -/
abbrev Sample := BitVec 16

end Sys2Proof
end

