-- ==== Sys2Proof/Config.lean ====
section
/-! DEFINITION. The implementation parameters of 00_scope.md R8, as a record, with the constraints the rule puts on
any configuration. The spec's values stand in Machine/Params.lean. `SAMPLE_W`, `CNT_W` and `CMD_W` are widths and
are fixed in the types (log 9). -/

namespace Sys2Proof

/-- The parameters of R8 that are values. -/
structure Config where
  /-- `THRESH`: a first-half run scores 1 when `cnt >= THRESH`. -/
  thresh    : Nat
  /-- `ZERO_W`: samples per half-period for bit 0. -/
  zeroW     : Nat
  /-- `ONE_W`: samples per half-period for bit 1. -/
  oneW      : Nat
  /-- `AMP_LOW`: the sample of a low run. -/
  ampLow    : Sample
  /-- `AMP_HIGH`: the sample of a high run. -/
  ampHigh   : Sample
  /-- `SYNC_NEW`: the one byte of a New image's header. -/
  syncNew   : Byte
  /-- `OLD_HDR`: the header of an Old image. -/
  oldHdr    : List Byte
  /-- `HDR_LEN_NEW`. -/
  hdrLenNew : Nat
  /-- `HDR_LEN_OLD`. -/
  hdrLenOld : Nat
deriving DecidableEq, Repr

/-- The greatest value of the run counter (`CNT_MAX` of R8, for `CNT_W = 8`). -/
abbrev cntMax : Nat := 255

/-- The constraints of R8 on any configuration, and the agreement of header and header length that R57 asks of the
FRAMING table (`length(header(f)) = hdrlen(f)`). -/
structure Config.Valid (c : Config) : Prop where
  zeroW_pos      : 1 ≤ c.zeroW
  zeroW_lt       : c.zeroW < c.thresh
  thresh_le      : c.thresh ≤ c.oneW - 1
  thresh_le_max  : c.thresh ≤ cntMax
  ampLow_nonpos  : c.ampLow.toInt ≤ 0
  ampHigh_pos    : 0 < c.ampHigh.toInt
  hdrLenOld_eq   : c.hdrLenOld = 3 + 357
  hdrLenNew_eq   : c.hdrLenNew = 1
  oldHdr_length  : c.oldHdr.length = c.hdrLenOld

end Sys2Proof
end

