-- ==== Sys2Proof/Syntax.lean ====
section
/-! DEFINITION. The block's commands (30_encoding.md R82, R88), the fields of a command word (R81), and the
assembler's lines (R92, R93). -/

namespace Sys2Proof

/-- The format tag {New, Old} (20_memory.md R57, R60). It decides the header and the bit order together. -/
inductive Format where
  /-- New: header 0x4F, payload bytes assembled MSB-first. -/
  | new
  /-- Old: header of 360 bytes, payload bytes assembled by right shift. -/
  | old
deriving DecidableEq, Repr

/-- The raw bit `r` of a START command (R86). -/
inductive Mode where
  /-- r = 0: the unit produces or strips the framing header. -/
  | image
  /-- r = 1: the unit works on a bare payload and touches no header. -/
  | raw
deriving DecidableEq, Repr

/-- The commands: one constructor per row of opcode_table.json (R82, R88). Every operand has its exact width (R62),
so every term is a legal command. -/
inductive Instr where
  /-- NOP (43_control.md R200). -/
  | nop
  /-- DEC_START, output format and mode (40_pulse_decoder.md R101). -/
  | decStart (f : Format) (r : Mode)
  /-- DEC_SAMPLE, one sample (R102). -/
  | decSample (x : Sample)
  /-- DEC_FLUSH (R111). -/
  | decFlush
  /-- ENC_START, mode; the format is always New (41_pulse_encoder.md R141). -/
  | encStart (r : Mode)
  /-- ENC_BYTE, one byte (R142). -/
  | encByte (b : Byte)
  /-- TRC_START, source format and mode (42_bit_order_transcoder.md R173). -/
  | trcStart (f : Format) (r : Mode)
  /-- TRC_BYTE, one byte (R174). -/
  | trcByte (b : Byte)
deriving DecidableEq, Repr

/-- The unit a command goes to (R82). -/
inductive UnitName where
  /-- NOP goes to no unit. -/
  | noUnit
  /-- The pulse decoder. -/
  | pdec
  /-- The pulse encoder. -/
  | penc
  /-- The bit-order transcoder. -/
  | ptrc
deriving DecidableEq, Repr

/-- The four fields of a command word (R81). -/
structure Fields where
  /-- `OP`, bits 31:28. -/
  op   : BitVec 4
  /-- `MOD`, bits 27:24. -/
  mod  : BitVec 4
  /-- `RSV`, bits 23:16. -/
  rsv  : BitVec 8
  /-- `DATA`, bits 15:0. -/
  data : BitVec 16
deriving DecidableEq, Repr

/-- The cause codes of an illegal command (60_exceptions.md R213). -/
inductive Cause where
  /-- Code 0: no illegal command since reset. -/
  | none
  /-- Code 1: `OP` in 0x8..0xF. -/
  | illOp
  /-- Code 2: a defined `OP` with a non-zero `RSV` or must-be-zero bit. -/
  | illField
  /-- Code 3: ENC_START asking for an Old-format encode. -/
  | illFmt
deriving DecidableEq, Repr

/-- What a command word decodes to (R87): a legal command, or ILLEGAL with its cause. -/
inductive Decoded where
  | legal (i : Instr)
  | illegal (c : Cause)
deriving DecidableEq, Repr

/-- An immediate as an assembler line writes it (R92): signed decimal or hexadecimal. -/
inductive Imm where
  | dec (v : Int)
  | hex (v : Nat)
deriving DecidableEq, Repr

/-- The polarity of a DEC_RUN line (R93): `+n`, `-n` or `0n`. -/
inductive RunSign where
  | plus
  | minus
  | zero
deriving DecidableEq, Repr

/-- One assembler line: the commands of R92, the second spelling `TRC_START.RAW`, and the pseudo-instructions of R93. -/
inductive AsmLine where
  | nop
  | decStart (f : Format) (r : Mode)
  | decSample (imm : Imm)
  | decFlush
  | encStart (r : Mode)
  | encByte (imm : Imm)
  | trcStart (f : Format) (r : Mode)
  | trcByte (imm : Imm)
  /-- `TRC_START.RAW`, which R92 says stands for `TRC_START.N2O.RAW`. -/
  | trcStartRaw
  /-- `DEC_RUN +n`, `DEC_RUN -n`, `DEC_RUN 0n`. -/
  | decRun (sign : RunSign) (n : Nat)
  /-- `ENC_BYTES b0, ..., bk`. -/
  | encBytes (first : Imm) (rest : List Imm)
  /-- `TRC_BYTES b0, ..., bk`. -/
  | trcBytes (first : Imm) (rest : List Imm)
  /-- `DEC_SAMPLES s0, ..., sk`. -/
  | decSamples (first : Imm) (rest : List Imm)
deriving DecidableEq, Repr

end Sys2Proof
end

