-- ==== Sys2Proof/WellFormed.lean ====
section
/-! DEFINITION. When the fields of a command word form a legal command (30_encoding.md R83 to R86), one check per
rule, and when an assembler line may be assembled (R92, R93). A term of `Instr` carries exact widths and needs no
check of its own: its fields are what these checks speak of. -/

namespace Sys2Proof

/-- `OP` is one of 0x0 to 0x7 (R82). -/
def Fields.opOk (x : Fields) : Bool := x.op < 8#4

/-- `RSV` is 0x00 (R83). -/
def Fields.rsvOk (x : Fields) : Bool := x.rsv == 0#8

/-- `OP` takes the start form of `MOD` (R85): DEC_START, ENC_START, TRC_START. -/
def Fields.isStart (x : Fields) : Bool := x.op == 1#4 || x.op == 4#4 || x.op == 6#4

/-- `OP` takes the byte form of `DATA` (R84): ENC_BYTE, TRC_BYTE. -/
def Fields.isByte (x : Fields) : Bool := x.op == 5#4 || x.op == 7#4

/-- The must-be-zero bits of `MOD` are zero: `MOD[3:2]` in the start form, all of it else (R85, R86). -/
def Fields.modOk (x : Fields) : Bool :=
  if x.isStart then x.mod.extractLsb' 2 2 == 0#2 else x.mod == 0#4

/-- The must-be-zero bits of `DATA` are zero: none of DEC_SAMPLE, `DATA[15:8]` of the byte form, all of it else (R84). -/
def Fields.dataOk (x : Fields) : Bool :=
  if x.op == 2#4 then true
  else if x.isByte then x.data.extractLsb' 8 8 == 0#8
  else x.data == 0#16

/-- ENC_START has `MOD[0] = 0` (R86; 00_scope.md R7). -/
def Fields.fmtOk (x : Fields) : Bool := !(x.op == 4#4 && x.mod.getLsbD 0)

/-- The fields form a legal command. -/
def Fields.wellFormed (x : Fields) : Bool :=
  x.opOk && x.rsvOk && x.modOk && x.dataOk && x.fmtOk

/-- The immediate of DEC_SAMPLE is in range: -32768..32767 in decimal, 0x0000..0xFFFF in hexadecimal (R92). -/
def Imm.sampleOk : Imm → Bool
  | .dec v => decide (-32768 ≤ v ∧ v ≤ 32767)
  | .hex v => decide (v ≤ 0xFFFF)

/-- The immediate of ENC_BYTE or TRC_BYTE is in range: 0..255 or 0x00..0xFF (R92). -/
def Imm.byteOk : Imm → Bool
  | .dec v => decide (0 ≤ v ∧ v ≤ 255)
  | .hex v => decide (v ≤ 0xFF)

/-- The count of a DEC_RUN may stand: `n >= 1` for `+n` and `-n` (R93). For `0n` R93 gives no bound; that `n = 0` is
accepted there, as no copies, is the model's own choice (DESIGN CHOICE, log 15). -/
def RunSign.countOk : RunSign → Nat → Bool
  | .plus, n  => decide (1 ≤ n)
  | .minus, n => decide (1 ≤ n)
  | .zero, _  => true

/-- The line may be assembled: every immediate is in range (R92), and the count of a DEC_RUN may stand (R93, log 15). -/
def AsmLine.wellFormed : AsmLine → Bool
  | .nop | .decStart _ _ | .decFlush | .encStart _ | .trcStart _ _ | .trcStartRaw => true
  | .decSample imm => imm.sampleOk
  | .encByte imm => imm.byteOk
  | .trcByte imm => imm.byteOk
  | .decRun sign n => sign.countOk n
  | .encBytes b bs => b.byteOk && bs.all Imm.byteOk
  | .trcBytes b bs => b.byteOk && bs.all Imm.byteOk
  | .decSamples x xs => x.sampleOk && xs.all Imm.sampleOk

end Sys2Proof
end

