-- ==== Sys2Proof/Decode.lean ====
section
/-! DEFINITION. The decode function of 30_encoding.md R87, the encoder and the opcode map of R88, written from the
tables of R81, R82 and R86, and the assembler of R92 and R93. A command word is one parallel 32-bit value (R51, R54):
no byte order applies to it. -/

namespace Sys2Proof

/-- The fields of a command word (R81). -/
def fieldsOf (w : Word) : Fields where
  op   := w.extractLsb' 28 4
  mod  := w.extractLsb' 24 4
  rsv  := w.extractLsb' 16 8
  data := w.extractLsb' 0 16

/-- The format bit `f = MOD[0]`, 0 = New and 1 = Old (R86). -/
def Format.ofBit (b : Bool) : Format := if b then .old else .new

/-- The code of a format: 0 = New, 1 = Old (20_memory.md R57). -/
def Format.toBit : Format → Bool
  | .new => false
  | .old => true

/-- The raw bit `r = MOD[1]` (R86). -/
def Mode.ofBit (b : Bool) : Mode := if b then .raw else .image

/-- The code of a mode: 0 = image, 1 = raw (R86). -/
def Mode.toBit : Mode → Bool
  | .image => false
  | .raw => true

/-- R87 on the fields of a word: `OP` first, then `RSV`, then the must-be-zero bits of `MOD` and `DATA`, then the
format check of ENC_START; the first check that fails gives the cause (60_exceptions.md R214). -/
def decodeFields (x : Fields) : Decoded :=
  if 8#4 ≤ x.op then .illegal .illOp
  else if x.rsv ≠ 0#8 then .illegal .illField
  else if x.op = 0#4 then
    if x.mod ≠ 0#4 ∨ x.data ≠ 0#16 then .illegal .illField
    else .legal .nop
  else if x.op = 1#4 then
    if x.mod.extractLsb' 2 2 ≠ 0#2 ∨ x.data ≠ 0#16 then .illegal .illField
    else .legal (.decStart (.ofBit (x.mod.getLsbD 0)) (.ofBit (x.mod.getLsbD 1)))
  else if x.op = 2#4 then
    if x.mod ≠ 0#4 then .illegal .illField
    else .legal (.decSample x.data)
  else if x.op = 3#4 then
    if x.mod ≠ 0#4 ∨ x.data ≠ 0#16 then .illegal .illField
    else .legal .decFlush
  else if x.op = 4#4 then
    if x.mod.extractLsb' 2 2 ≠ 0#2 ∨ x.data ≠ 0#16 then .illegal .illField
    else if x.mod.getLsbD 0 = true then .illegal .illFmt
    else .legal (.encStart (.ofBit (x.mod.getLsbD 1)))
  else if x.op = 5#4 then
    if x.mod ≠ 0#4 ∨ x.data.extractLsb' 8 8 ≠ 0#8 then .illegal .illField
    else .legal (.encByte (x.data.extractLsb' 0 8))
  else if x.op = 6#4 then
    if x.mod.extractLsb' 2 2 ≠ 0#2 ∨ x.data ≠ 0#16 then .illegal .illField
    else .legal (.trcStart (.ofBit (x.mod.getLsbD 0)) (.ofBit (x.mod.getLsbD 1)))
  else
    if x.mod ≠ 0#4 ∨ x.data.extractLsb' 8 8 ≠ 0#8 then .illegal .illField
    else .legal (.trcByte (x.data.extractLsb' 0 8))

/-- The decode function of R87, total on all 2^32 words. -/
def decode (w : Word) : Decoded := decodeFields (fieldsOf w)

/-- A word from its fields (R81). -/
def wordOf (x : Fields) : Word := x.op ++ x.mod ++ x.rsv ++ x.data

/-- The start form of `MOD`: `0b00 r f` (R86). -/
def startMod (f : Format) (r : Mode) : BitVec 4 :=
  0#2 ++ BitVec.ofBool r.toBit ++ BitVec.ofBool f.toBit

/-- The fields of a command (R82, R84, R85, R86). -/
def fieldsOfInstr : Instr → Fields
  | .nop          => ⟨0#4, 0#4, 0#8, 0#16⟩
  | .decStart f r => ⟨1#4, startMod f r, 0#8, 0#16⟩
  | .decSample x  => ⟨2#4, 0#4, 0#8, x⟩
  | .decFlush     => ⟨3#4, 0#4, 0#8, 0#16⟩
  | .encStart r   => ⟨4#4, startMod .new r, 0#8, 0#16⟩
  | .encByte b    => ⟨5#4, 0#4, 0#8, 0#8 ++ b⟩
  | .trcStart f r => ⟨6#4, startMod f r, 0#8, 0#16⟩
  | .trcByte b    => ⟨7#4, 0#4, 0#8, 0#8 ++ b⟩

/-- The word of a command (R88). -/
def encode (i : Instr) : Word := wordOf (fieldsOfInstr i)

/-- The mnemonic of a command, as opcode_table.json spells it (R82). -/
def Instr.mnemonic : Instr → String
  | .nop          => "NOP"
  | .decStart _ _ => "DEC_START"
  | .decSample _  => "DEC_SAMPLE"
  | .decFlush     => "DEC_FLUSH"
  | .encStart _   => "ENC_START"
  | .encByte _    => "ENC_BYTE"
  | .trcStart _ _ => "TRC_START"
  | .trcByte _    => "TRC_BYTE"

/-- The unit a command goes to (R82). -/
def Instr.unit : Instr → UnitName
  | .nop          => .noUnit
  | .decStart _ _ => .pdec
  | .decSample _  => .pdec
  | .decFlush     => .pdec
  | .encStart _   => .penc
  | .encByte _    => .penc
  | .trcStart _ _ => .ptrc
  | .trcByte _    => .ptrc

/-- One row of the opcode map in match and mask form (R88). -/
structure OpcodeRow where
  mnemonic : String
  pattern  : Word
  mask     : Word
deriving DecidableEq, Repr

/-- The word matches the row: `(cmd & mask) == match` (R88). -/
def OpcodeRow.covers (row : OpcodeRow) (w : Word) : Bool := w &&& row.mask == row.pattern

/-- The opcode map of R88. -/
def opcodeRows : List OpcodeRow :=
  [⟨"NOP",        0x00000000#32, 0xFFFFFFFF#32⟩,
   ⟨"DEC_START",  0x10000000#32, 0xFCFFFFFF#32⟩,
   ⟨"DEC_SAMPLE", 0x20000000#32, 0xFFFF0000#32⟩,
   ⟨"DEC_FLUSH",  0x30000000#32, 0xFFFFFFFF#32⟩,
   ⟨"ENC_START",  0x40000000#32, 0xFDFFFFFF#32⟩,
   ⟨"ENC_BYTE",   0x50000000#32, 0xFFFFFF00#32⟩,
   ⟨"TRC_START",  0x60000000#32, 0xFCFFFFFF#32⟩,
   ⟨"TRC_BYTE",   0x70000000#32, 0xFFFFFF00#32⟩]

/-- The code of a cause, as STATUS shows it (60_exceptions.md R213). -/
def Cause.code : Cause → BitVec 2
  | .none     => 0#2
  | .illOp    => 1#2
  | .illField => 2#2
  | .illFmt   => 3#2

/-- The command word whose bits are `w`, numbered as opcode_table.json numbers them, the bits from `nbits` up being
zero (log 11). -/
def tableWord (nbits w : Nat) : Word := BitVec.ofNat 32 (w % 2 ^ nbits)

/-- The command this decoder reads from the word whose bits are `w`; none where it decodes to ILLEGAL (R87). -/
def decodeTableWord (nbits w : Nat) : Option Instr :=
  match decode (tableWord nbits w) with
  | .legal i => some i
  | .illegal _ => none

/-- The sample an in-range immediate of DEC_SAMPLE stands for: `imm & 0xFFFF` (R92). -/
def Imm.toSample : Imm → Sample
  | .dec v => BitVec.ofInt 16 v
  | .hex v => BitVec.ofNat 16 v

/-- The byte an in-range immediate of ENC_BYTE or TRC_BYTE stands for (R92). -/
def Imm.toByte : Imm → Byte
  | .dec v => BitVec.ofInt 8 v
  | .hex v => BitVec.ofNat 8 v

/-- The sample that a DEC_RUN repeats: 1, -1 or 0 (R93). -/
def RunSign.sample : RunSign → Sample
  | .plus  => 0x0001#16
  | .minus => 0xFFFF#16
  | .zero  => 0x0000#16

/-- The commands a line stands for: itself (R92), or its expansion in order (R93). -/
def AsmLine.commands : AsmLine → List Instr
  | .nop             => [.nop]
  | .decStart f r    => [.decStart f r]
  | .decSample imm   => [.decSample imm.toSample]
  | .decFlush        => [.decFlush]
  | .encStart r      => [.encStart r]
  | .encByte imm     => [.encByte imm.toByte]
  | .trcStart f r    => [.trcStart f r]
  | .trcByte imm     => [.trcByte imm.toByte]
  | .trcStartRaw     => [.trcStart .new .raw]
  | .decRun sign n   => List.replicate n (.decSample sign.sample)
  | .encBytes b bs   => (b :: bs).map fun imm => .encByte imm.toByte
  | .trcBytes b bs   => (b :: bs).map fun imm => .trcByte imm.toByte
  | .decSamples x xs => (x :: xs).map fun imm => .decSample imm.toSample

/-- The words a line assembles to; a line with an immediate out of range is refused, not truncated (R92). -/
def assemble (line : AsmLine) : Option (List Word) :=
  if line.wellFormed then some (line.commands.map encode) else none

/-- The suffix that names a session's mode; image mode has none (R92). -/
def Mode.suffix : Mode → String
  | .image => ""
  | .raw   => ".RAW"

/-- The mnemonic of a line with its dot-suffixes, in the fixed order of R92. -/
def AsmLine.mnemonicText : AsmLine → String
  | .nop             => "NOP"
  | .decStart .new r => "DEC_START.NEW" ++ r.suffix
  | .decStart .old r => "DEC_START.OLD" ++ r.suffix
  | .decSample _     => "DEC_SAMPLE"
  | .decFlush        => "DEC_FLUSH"
  | .encStart r      => "ENC_START" ++ r.suffix
  | .encByte _       => "ENC_BYTE"
  | .trcStart .new r => "TRC_START.N2O" ++ r.suffix
  | .trcStart .old r => "TRC_START.O2N" ++ r.suffix
  | .trcByte _       => "TRC_BYTE"
  | .trcStartRaw     => "TRC_START.RAW"
  | .decRun _ _      => "DEC_RUN"
  | .encBytes _ _    => "ENC_BYTES"
  | .trcBytes _ _    => "TRC_BYTES"
  | .decSamples _ _  => "DEC_SAMPLES"

end Sys2Proof
end

