-- ==== Sys2Proof/Machine/State.lean ====
section
/-! DEFINITION. The architectural state of 10_state.md R22, the model's own queue of port events, the reasons a step
can stop, and the state after reset (R37). -/

namespace Sys2Proof.Machine

/-- The state of PDEC (10_state.md R23). -/
structure Decoder where
  /-- `D.fmt`: the format of the session. -/
  fmt       : Format
  /-- `D.primed`: a sample has arrived in this session. -/
  primed    : Bool
  /-- `D.prev`: the last sample examined was positive; not meaningful while `primed` is false. -/
  prev      : Bool
  /-- `D.cnt`: the same-polarity run counter, saturating at 255. -/
  cnt       : BitVec 8
  /-- `D.firstPart`: false = the next transition ends a first half. -/
  firstPart : Bool
  /-- `D.acc`: the pending byte accumulator. -/
  acc       : Byte
  /-- `D.bitpos`: the number of bits accumulated, 0..7. -/
  bitpos    : BitVec 3
deriving DecidableEq, Repr

/-- The state of PENC (10_state.md R25). -/
structure Encoder where
  /-- `E.skip`: the number of leading input bytes still to discard, 0 or 1. -/
  skip : BitVec 1
deriving DecidableEq, Repr

/-- The state of PTRC (10_state.md R26). -/
structure Transcoder where
  /-- `T.skip`: the number of source-header bytes still to discard. -/
  skip : BitVec 9
deriving DecidableEq, Repr

/-- The error state S (10_state.md R28). -/
structure ErrorState where
  /-- `S.ill`: an illegal command has been accepted since reset. -/
  ill    : Bool
  /-- `S.cause`: the cause of the first illegal command. -/
  cause  : Cause
  /-- `S.illcmd`: the first illegal command word. -/
  illcmd : Word
deriving DecidableEq, Repr

/-- What the host does at the ports, each handshake abstracted to one event (20_memory.md R51; log 1). -/
inductive PortEvent where
  /-- The host offers one command word at the command port. -/
  | command (w : Word)
  /-- The host takes the front element of DOUT. -/
  | takeDout
  /-- The host takes the front element of TOUT. -/
  | takeTout
  /-- The host takes the front element of SOUT. -/
  | takeSout
  /-- `rst` is asserted and released (70_reset_and_hazards.md R240; log 4). -/
  | reset
deriving DecidableEq, Repr

/-- The state: the tuple `(D, E, T, S, DOUT, TOUT, SOUT)` of R22, and the host's coming port events. -/
structure State where
  /-- D, the PDEC state (R23). -/
  dec   : Decoder
  /-- E, the PENC state (R25). -/
  enc   : Encoder
  /-- T, the PTRC state (R26). -/
  trc   : Transcoder
  /-- S, the error state (R28). -/
  err   : ErrorState
  /-- DOUT, front element first (R27). -/
  dout  : List Byte
  /-- TOUT, front element first (R27). -/
  tout  : List Byte
  /-- SOUT, front element first (R27). -/
  sout  : List Sample
  /-- The model's own field: the host's port events still to come, the next one first (log 1). -/
  input : List PortEvent
deriving DecidableEq, Repr

/-- The reasons a step stops with a fault. There are none: the one event the block raises, IllegalCommand, is recorded
in S and the block goes on (60_exceptions.md R210, R211, R220; log 6). -/
inductive Fault
deriving DecidableEq, Repr

/-- The reasons a step has no meaning. -/
inductive Refusal where
  /-- Raised by an arm of `exec` whose command has no meaning yet; no arm raises it now. Safe: the run stops. -/
  | notModelled (mnemonic : String)
deriving DecidableEq, Repr

/-- What a step or a command answers. -/
abbrev Result := Host.Outcome State Fault Refusal

/-- PDEC after reset (R23, R37). -/
def Decoder.reset : Decoder where
  fmt := .new
  primed := false
  prev := false
  cnt := 0#8
  firstPart := false
  acc := 0#8
  bitpos := 0#3

/-- The machine right after reset (R37). No port event waits (log 1). -/
def State.reset : State where
  dec := Decoder.reset
  enc := { skip := 0#1 }
  trc := { skip := 0#9 }
  err := { ill := false, cause := .none, illcmd := 0#32 }
  dout := []
  tout := []
  sout := []
  input := []

end Sys2Proof.Machine
end

