-- ==== Sys2Proof/Machine/Flags.lean ====
section
/-! DEFINITION. The flags of 10_state.md R34 and how commands write them: the half-cycle toggle, the polarity and
primed flags of PDEC, the run counter beside them, and the sticky error flag. -/

namespace Sys2Proof.Machine

/-- `sat_inc8(c)`: the saturating increment of the run counter (40_pulse_decoder.md R105). -/
def satInc8 (c : BitVec 8) : BitVec 8 := if c = 255#8 then 255#8 else c + 1#8

/-- The first sample of a session: it sets the polarity flag and counts (R103). -/
def Decoder.prime (d : Decoder) (p : Bool) : Decoder :=
  { d with primed := true, prev := p, cnt := 1#8 }

/-- A sample of the polarity before it: the run goes on (R105). -/
def Decoder.countSample (d : Decoder) : Decoder := { d with cnt := satInc8 d.cnt }

/-- The flags after a transition to polarity `p`: the toggle turns, the counter restarts without the sample (R106). -/
def Decoder.toggle (d : Decoder) (p : Bool) : Decoder :=
  { d with firstPart := !d.firstPart, cnt := 0#8, prev := p }

/-- PDEC's initial state in format `f`: every flag, the counter and the accumulator cleared (R101, R115). -/
def Decoder.initial (f : Format) : Decoder :=
  { Decoder.reset with fmt := f }

/-- S after an illegal command `w` of cause `c`: the first one since reset is recorded, a later one changes nothing
(60_exceptions.md R211, R215). -/
def ErrorState.record (e : ErrorState) (c : Cause) (w : Word) : ErrorState :=
  if e.ill then e else { ill := true, cause := c, illcmd := w }

end Sys2Proof.Machine
end

