-- ==== Sys2Proof/Machine/Params.lean ====
section
/-! DEFINITION. The values of the parameters of 00_scope.md R8. The FRAMING
table over them stands in Framing.lean. -/

namespace Sys2Proof.Machine

/-- The spec's value of every parameter (R8). -/
def params : Config where
  thresh := 11
  zeroW := 9
  oneW := 17
  ampLow := 0xA000#16
  ampHigh := 0x6000#16
  syncNew := 0x4F#8
  oldHdr := [0x68#8, 0x01#8, 0x00#8] ++ List.replicate 357 0x00#8
  hdrLenNew := 1
  hdrLenOld := 360

end Sys2Proof.Machine
end

