-- ==== Sys2Proof/Machine/Framing.lean ====
section
/-! DEFINITION. The FRAMING table (20_memory.md R55 to R57, R60): the header and the header length of each format. -/

namespace Sys2Proof.Machine

/-- `header(f)`: the bytes that start an image the block produces (R57). -/
def header (c : Config) : Format → List Byte
  | .new => [c.syncNew]
  | .old => c.oldHdr

/-- `hdrlen(f)`: the number of leading bytes the block discards from an image it takes (R57). -/
def hdrlen (c : Config) : Format → Nat
  | .new => c.hdrLenNew
  | .old => c.hdrLenOld

/-- The other format: `g = 1 - f` (42_bit_order_transcoder.md R173). -/
def otherFormat : Format → Format
  | .new => .old
  | .old => .new

/-- The header bytes a START emits: in image mode `header(f)`, in raw mode none (30_encoding.md R86). -/
def startHeader (c : Config) (f : Format) : Mode → List Byte
  | .image => header c f
  | .raw => []

end Sys2Proof.Machine
end

