-- ==== Sys2Proof/Machine/Operands.lean ====
section
/-! DEFINITION. How a command uses its operand (30_encoding.md R94): the polarity of a sample
(40_pulse_decoder.md R104) and the bits of a byte (41_pulse_encoder.md R144; 42_bit_order_transcoder.md R170). -/

namespace Sys2Proof.Machine

/-- `polarity(s)`: `signed16(s) > 0` (R104). Zero and every negative value are not positive. -/
def polarity (x : Sample) : Bool := decide (0 < x.toInt)

/-- The bits of a byte in the order the encoder sends them: bit 7 first (R144). -/
def bitsMsbFirst (b : Byte) : List Bool :=
  [7, 6, 5, 4, 3, 2, 1, 0].map fun i => b.getLsbD i

/-- `brev(b)`: the byte bit-reversal, `{b[0], b[1], ..., b[7]}` (R170). -/
def brev (b : Byte) : Byte :=
  BitVec.ofBool (b.getLsbD 0) ++ BitVec.ofBool (b.getLsbD 1) ++ BitVec.ofBool (b.getLsbD 2) ++
  BitVec.ofBool (b.getLsbD 3) ++ BitVec.ofBool (b.getLsbD 4) ++ BitVec.ofBool (b.getLsbD 5) ++
  BitVec.ofBool (b.getLsbD 6) ++ BitVec.ofBool (b.getLsbD 7)

end Sys2Proof.Machine
end

