-- ==== Sys2Proof/Machine/Ops.lean ====
section
/-! DEFINITION. The operations over State that commands and port events share: the one home of each field's write,
emission to a channel (00_scope.md R10), the drains (10_state.md R27), the error action (60_exceptions.md R211), and
the ports the host reads: the channels' fronts and the status port (10_state.md R29 to R35). -/

namespace Sys2Proof.Machine

/-- `D <- d`. -/
def State.setDec (s : State) (d : Decoder) : State := { s with dec := d }

/-- `E <- e`. -/
def State.setEnc (s : State) (e : Encoder) : State := { s with enc := e }

/-- `T <- t`. -/
def State.setTrc (s : State) (t : Transcoder) : State := { s with trc := t }

/-- `S <- e`. -/
def State.setErr (s : State) (e : ErrorState) : State := { s with err := e }

/-- `emit(DOUT, v)` for each `v` of `vs` in order (R10, R27). -/
def State.emitDout (s : State) (vs : List Byte) : State := { s with dout := s.dout ++ vs }

/-- `emit(TOUT, v)` for each `v` of `vs` in order (R10, R27). -/
def State.emitTout (s : State) (vs : List Byte) : State := { s with tout := s.tout ++ vs }

/-- `emit(SOUT, v)` for each `v` of `vs` in order (R10, R27). -/
def State.emitSout (s : State) (vs : List Sample) : State := { s with sout := s.sout ++ vs }

/-- The host's coming port events become `es` (log 1). -/
def State.setInput (s : State) (es : List PortEvent) : State := { s with input := es }

/-- IllegalCommand, the one event the block raises: S records the first one, nothing else changes, no state is saved,
no mode changes and no vector is taken (60_exceptions.md R211, R215, R216, R218). There is no return from it (R219). -/
def raiseIllegal (c : Cause) (w : Word) (s : State) : State := s.setErr (s.err.record c w)

/-- The host takes the front element of DOUT; at an empty channel nothing transfers (R27, R63; log 5). -/
def State.takeDout (s : State) : State := { s with dout := s.dout.tail }

/-- The host takes the front element of TOUT (R27, R63; log 5). -/
def State.takeTout (s : State) : State := { s with tout := s.tout.tail }

/-- The host takes the front element of SOUT (R27, R63; log 5). -/
def State.takeSout (s : State) : State := { s with sout := s.sout.tail }

/-- Reset: every piece of state at its reset value, undelivered elements discarded; what the host does afterwards is
not the block's to discard (R37; 70_reset_and_hazards.md R240, R241; log 4). -/
def State.takeReset (s : State) : State := State.reset.setInput s.input

/-- `dout_valid` and `dout_data`: the front element, where there is one (20_memory.md R51). -/
def State.doutPort (s : State) : Option Byte := s.dout.head?

/-- `tout_valid` and `tout_data` (R51). -/
def State.toutPort (s : State) : Option Byte := s.tout.head?

/-- `sout_valid` and `sout_data` (R51). -/
def State.soutPort (s : State) : Option Sample := s.sout.head?

/-- STATUS: bit 0 ILL, bits 2:1 CAUSE (10_state.md R30). -/
def statusReg (e : ErrorState) : Word := 0#29 ++ e.cause.code ++ BitVec.ofBool e.ill

/-- DECSTAT: bit 0 FMT, 1 PRIMED, 2 PREV, 3 FIRSTPART, 6:4 BITPOS, 15:8 ACC, 23:16 CNT (R31). -/
def decstatReg (d : Decoder) : Word :=
  0#8 ++ d.cnt ++ d.acc ++ 0#1 ++ d.bitpos ++ BitVec.ofBool d.firstPart ++ BitVec.ofBool d.prev ++
  BitVec.ofBool d.primed ++ BitVec.ofBool d.fmt.toBit

/-- ENCSTAT: bit 0 SKIP (R32). -/
def encstatReg (e : Encoder) : Word := 0#31 ++ e.skip

/-- TRCSTAT: bits 8:0 SKIP (R33). -/
def trcstatReg (t : Transcoder) : Word := 0#23 ++ t.skip

/-- ILLCMD: the captured word (R35). -/
def illcmdReg (e : ErrorState) : Word := e.illcmd

/-- The status port: the register at a 3-bit index, computed from the current state; indices 5, 6 and 7 read zero
(R29; log 7). -/
def State.statusPort (s : State) (idx : BitVec 3) : Word :=
  if idx = 0#3 then statusReg s.err
  else if idx = 1#3 then decstatReg s.dec
  else if idx = 2#3 then encstatReg s.enc
  else if idx = 3#3 then trcstatReg s.trc
  else if idx = 4#3 then illcmdReg s.err
  else 0#32

end Sys2Proof.Machine
end

