-- ==== Sys2Proof/Machine/Control.lean ====
section
/-! DEFINITION. The control command (43_control.md). -/

namespace Sys2Proof.Machine

/-- NOP: no state change, no output (R200). -/
def execNop (s : State) : Result := .next s

end Sys2Proof.Machine
end

