-- ==== Sys2Proof/Machine/Pdec.lean ====
section
/-! DEFINITION. The pulse decoder PDEC (40_pulse_decoder.md). Each command is a function of PDEC's own state and its
operand that gives the new state and the bytes it emits (10_state.md R38); the meaning lifts it to State. -/

namespace Sys2Proof.Machine

/-- The threshold comparator: the bit scored for a run whose counter is `cnt` (R107). -/
def scoreRun (c : Config) (cnt : BitVec 8) : Bool := decide (c.thresh ≤ cnt.toNat)

/-- The accumulator after one more bit: shift left in New format (R108), shift right with high-bit injection in Old
format (R109). -/
def shiftIn (f : Format) (acc : Byte) (bit : Bool) : Byte :=
  match f with
  | .new => (acc <<< 1) ||| (if bit then 0x01#8 else 0x00#8)
  | .old => (acc >>> 1) ||| (if bit then 0x80#8 else 0x00#8)

/-- `accumulate(bit)`: shift the bit in; at the eighth bit emit the byte and restart (R110). -/
def Decoder.accumulate (d : Decoder) (bit : Bool) : Decoder × List Byte :=
  if d.bitpos = 7#3 then
    ({ d with acc := 0x00#8, bitpos := 0#3 }, [shiftIn d.fmt d.acc bit])
  else
    ({ d with acc := shiftIn d.fmt d.acc bit, bitpos := d.bitpos + 1#3 }, [])

/-- A transition to polarity `p`: a first half is scored and accumulated, a second half is consumed (R106). -/
def Decoder.transition (c : Config) (d : Decoder) (p : Bool) : Decoder × List Byte :=
  if d.firstPart then (d.toggle p, [])
  else
    let r := d.accumulate (scoreRun c d.cnt)
    (r.1.toggle p, r.2)

/-- One sample of polarity `p` (R102, R103, R105, R106). -/
def Decoder.sample (c : Config) (d : Decoder) (p : Bool) : Decoder × List Byte :=
  if d.primed then
    if p = d.prev then (d.countSample, []) else d.transition c p
  else (d.prime p, [])

/-- A sequence of samples in order: the state after them and the bytes they emit, in order (R100). -/
def Decoder.samples (c : Config) : Decoder → List Sample → Decoder × List Byte
  | d, [] => (d, [])
  | d, x :: xs =>
    let r := d.sample c (polarity x)
    let q := Decoder.samples c r.1 xs
    (q.1, r.2 ++ q.2)

/-- The padded partial byte: the missing positions are filled with zeros (R111, R112). -/
def Decoder.paddedByte (d : Decoder) : Byte :=
  match d.fmt with
  | .new => d.acc <<< (8 - d.bitpos.toNat)
  | .old => d.acc >>> (8 - d.bitpos.toNat)

/-- End of input: a partial byte of 1 to 7 bits is emitted, the pending run is not scored, and PDEC is in its initial
state with the same format (R111 to R115). -/
def Decoder.flush (d : Decoder) : Decoder × List Byte :=
  (Decoder.initial d.fmt, if d.bitpos = 0#3 then [] else [d.paddedByte])

/-- A PDEC command's new state and emitted bytes, written to D and DOUT (R38). -/
def State.applyDec (s : State) (r : Decoder × List Byte) : State := (s.setDec r.1).emitDout r.2

/-- DEC_START (R101): PDEC in its initial state in format `f`, the header emitted in image mode. -/
def execDecStart (f : Format) (r : Mode) (s : State) : Result :=
  .next (s.applyDec (Decoder.initial f, startHeader params f r))

/-- DEC_SAMPLE (R102). -/
def execDecSample (x : Sample) (s : State) : Result :=
  .next (s.applyDec (s.dec.sample params (polarity x)))

/-- DEC_FLUSH (R111). -/
def execDecFlush (s : State) : Result := .next (s.applyDec s.dec.flush)

end Sys2Proof.Machine
end

