-- ==== Sys2Proof/Machine/Penc.lean ====
section
/-! DEFINITION. The pulse encoder PENC (41_pulse_encoder.md). -/

namespace Sys2Proof.Machine

/-- The samples of each half of a bit's cycle: `ONE_W` for a 1, `ZERO_W` for a 0 (R143). -/
def halfWidth (c : Config) (bit : Bool) : Nat := if bit then c.oneW else c.zeroW

/-- One bit cycle: a low run, then a high run of the same width (R143, R146). -/
def bitCycle (c : Config) (bit : Bool) : List Sample :=
  List.replicate (halfWidth c bit) c.ampLow ++ List.replicate (halfWidth c bit) c.ampHigh

/-- The waveform of a byte: its eight cycles, bit 7 first, without gaps (R142, R144, R145). -/
def byteWave (c : Config) (b : Byte) : List Sample := (bitsMsbFirst b).flatMap (bitCycle c)

/-- PENC at the start of a session: one byte to skip in image mode, none in raw mode (R141). -/
def Encoder.start (r : Mode) : Encoder :=
  match r with
  | .image => { skip := 1#1 }
  | .raw   => { skip := 0#1 }

/-- One byte: dropped as the sync byte, or encoded (R142, R148). -/
def Encoder.byte (c : Config) (e : Encoder) (b : Byte) : Encoder × List Sample :=
  if e.skip ≠ 0#1 then ({ skip := e.skip - 1#1 }, []) else (e, byteWave c b)

/-- A sequence of bytes in order: the state after them and the samples they emit, in order (R140). -/
def Encoder.bytes (c : Config) : Encoder → List Byte → Encoder × List Sample
  | e, [] => (e, [])
  | e, b :: bs =>
    let r := e.byte c b
    let q := Encoder.bytes c r.1 bs
    (q.1, r.2 ++ q.2)

/-- A PENC command's new state and emitted samples, written to E and SOUT (10_state.md R38). -/
def State.applyEnc (s : State) (r : Encoder × List Sample) : State := (s.setEnc r.1).emitSout r.2

/-- ENC_START (R141): it emits nothing. -/
def execEncStart (r : Mode) (s : State) : Result := .next (s.applyEnc (Encoder.start r, []))

/-- ENC_BYTE (R142). -/
def execEncByte (b : Byte) (s : State) : Result := .next (s.applyEnc (s.enc.byte params b))

end Sys2Proof.Machine
end

