-- ==== Sys2Proof/Machine/Ptrc.lean ====
section
/-! DEFINITION. The bit-order transcoder PTRC with header substitution (42_bit_order_transcoder.md). -/

namespace Sys2Proof.Machine

/-- PTRC at the start of a session: in image mode the source header's length to skip, in raw mode none (R173). -/
def Transcoder.start (c : Config) (f : Format) (r : Mode) : Transcoder :=
  match r with
  | .image => { skip := BitVec.ofNat 9 (hdrlen c f) }
  | .raw   => { skip := 0#9 }

/-- One image byte: dropped as header, or emitted bit-reversed (R174). -/
def Transcoder.byte (t : Transcoder) (b : Byte) : Transcoder × List Byte :=
  if t.skip ≠ 0#9 then ({ skip := t.skip - 1#9 }, []) else (t, [brev b])

/-- A sequence of bytes in order: the state after them and the bytes they emit, in order (R175, R176). -/
def Transcoder.bytes : Transcoder → List Byte → Transcoder × List Byte
  | t, [] => (t, [])
  | t, b :: bs =>
    let r := t.byte b
    let q := Transcoder.bytes r.1 bs
    (q.1, r.2 ++ q.2)

/-- A PTRC command's new state and emitted bytes, written to T and TOUT (10_state.md R38). -/
def State.applyTrc (s : State) (r : Transcoder × List Byte) : State := (s.setTrc r.1).emitTout r.2

/-- TRC_START (R173): in image mode the header of the TARGET format is emitted. -/
def execTrcStart (f : Format) (r : Mode) (s : State) : Result :=
  .next (s.applyTrc (Transcoder.start params f r, startHeader params (otherFormat f) r))

/-- TRC_BYTE (R174). -/
def execTrcByte (b : Byte) (s : State) : Result := .next (s.applyTrc (s.trc.byte b))

end Sys2Proof.Machine
end

