-- ==== Sys2Proof/Machine/Dispatch.lean ====
section
/-! DEFINITION. One arm per command (30_encoding.md R82). -/

namespace Sys2Proof.Machine

def exec (i : Instr) (s : State) : Host.Outcome State Fault Refusal :=
  match i with
  -- 43_control.md
  | .nop => Sys2Proof.Machine.execNop s
  -- 40_pulse_decoder.md
  | .decStart f r => Sys2Proof.Machine.execDecStart f r s
  | .decSample x => Sys2Proof.Machine.execDecSample x s
  | .decFlush => Sys2Proof.Machine.execDecFlush s
  -- 41_pulse_encoder.md
  | .encStart r => Sys2Proof.Machine.execEncStart r s
  | .encByte b => Sys2Proof.Machine.execEncByte b s
  -- 42_bit_order_transcoder.md
  | .trcStart f r => Sys2Proof.Machine.execTrcStart f r s
  | .trcByte b => Sys2Proof.Machine.execTrcByte b s

end Sys2Proof.Machine
end

