-- ==== Sys2Proof/Machine/Port.lean ====
section
/-! DEFINITION. The ports the host drives (20_memory.md R51): accepting a command word, the other port events, and a
list of commands in order (R65). -/

namespace Sys2Proof.Machine

/-- The command port accepts one word: it executes the command it decodes to, or takes the error action
(30_encoding.md R87; 60_exceptions.md R211). -/
def acceptCommand (w : Word) (s : State) : Result :=
  match decode w with
  | .legal i => exec i s
  | .illegal c => .next (raiseIllegal c w s)

/-- One port event, taken from the state in which it no longer waits. -/
def takeEvent (e : PortEvent) (s : State) : Result :=
  match e with
  | .command w => acceptCommand w s
  | .takeDout => .next s.takeDout
  | .takeTout => .next s.takeTout
  | .takeSout => .next s.takeSout
  | .reset => .next s.takeReset

/-- The commands of a list executed in order, stopping at the first that answers no next state (R65). -/
def runCommands : List Instr → State → Result
  | [], s => .next s
  | i :: is, s =>
    match exec i s with
    | .next t => runCommands is t
    | .fault r => .fault r
    | .refused r => .refused r

end Sys2Proof.Machine
end

