-- ==== Sys2Proof/Machine/Step.lean ====
section
/-! DEFINITION. One step: the next port event of the host (20_memory.md R51, R65). The block has no program counter
and no instruction memory (10_state.md R20; 20_memory.md R68); a command word is executed when it is accepted. -/

namespace Sys2Proof.Machine

/-- One step: the next port event; with none, nothing changes (70_reset_and_hazards.md R249; 60_exceptions.md R228;
log 3). -/
def step (s : State) : Host.Outcome State Fault Refusal :=
  match s.input with
  | [] => .next s
  | e :: rest => takeEvent e (s.setInput rest)

/-- The word whose table bits are `w`, offered at the command port as the very next event (log 1, log 11). -/
def State.withFetchWord (s : State) (nbits w : Nat) : State :=
  s.setInput (.command (tableWord nbits w) :: s.input)

end Sys2Proof.Machine
end

