-- ==== Sys2Proof/Machine/Conversions.lean ====
section
/-! DEFINITION. The five conversions of 70_reset_and_hazards.md R245 as command sequences. -/

namespace Sys2Proof.Machine

/-- A decode: DEC_START, one DEC_SAMPLE per sample, DEC_FLUSH (R245: wav→newTAP and wav→oldTAP in image mode). -/
def decodeCommands (f : Format) (r : Mode) (xs : List Sample) : List Instr :=
  .decStart f r :: (xs.map .decSample ++ [.decFlush])

/-- An encode: ENC_START, one ENC_BYTE per byte (R245: TAP→wav in image mode). -/
def encodeCommands (r : Mode) (bs : List Byte) : List Instr :=
  .encStart r :: bs.map .encByte

/-- A transcode from source format `f`: TRC_START, one TRC_BYTE per byte (R245: oldTAP→newTAP and newTAP→oldTAP in
image mode). -/
def transcodeCommands (f : Format) (r : Mode) (bs : List Byte) : List Instr :=
  .trcStart f r :: bs.map .trcByte

end Sys2Proof.Machine
end

