-- ==== Sys2Proof/Reference.lean ====
section
/-! DEFINITION. What obligations compare the machine with; the machine does not use this file. First the Old
header written out. Then the decoder's contract without its state machine, in the terms of 40_pulse_decoder.md R100,
R107 and R118: split the polarities into runs of unbounded length, score every other closed run, and pack the bits into
bytes. Then the must-be-zero bits of a command word as one mask per operation (30_encoding.md R84, R85). -/

namespace Sys2Proof.Reference

/-- The Old header, written out: 0x68, 0x01, 0x00, then 357 zero bytes (20_memory.md R56; `OLD_HDR` of 00_scope.md R8). -/
def oldHeader : List Byte := [0x68#8, 0x01#8, 0x00#8] ++ List.replicate 357 0x00#8

/-- The lengths of the maximal runs of equal polarity, given that `n` samples of polarity `p` came before. -/
def runsFrom (p : Bool) (n : Nat) : List Bool → List Nat
  | [] => [n]
  | q :: qs => if q = p then runsFrom p (n + 1) qs else n :: runsFrom q 1 qs

/-- The lengths of the maximal runs of equal polarity (00_scope.md R12). -/
def runs : List Bool → List Nat
  | [] => []
  | p :: ps => runsFrom p 1 ps

/-- The bits scored in the closed runs after the first: the first of them is a second half, and a first half of
length L scores 1 when L >= 12 (R106, R107). -/
def laterBits : List Nat → List Bool
  | [] => []
  | [_] => []
  | _ :: len :: rest => decide (12 ≤ len) :: laterBits rest

/-- The bits scored in the closed runs of a session: the first run scores 1 when L >= 11 (R107, R118). -/
def scoredBits : List Nat → List Bool
  | [] => []
  | len :: rest => decide (11 ≤ len) :: laterBits rest

/-- The bits of a payload: the last run is never closed and is not scored (R114). -/
def payloadBits (ps : List Bool) : List Bool := scoredBits (runs ps).dropLast

/-- The byte with bit `j + k` of the sequence at position `pos (j + k)`, zeros elsewhere. -/
def placeBits (pos : Nat → Nat) : Nat → List Bool → Byte
  | _, [] => 0x00#8
  | j, b :: bs => (if b then 0x01#8 <<< pos j else 0x00#8) ||| placeBits pos (j + 1) bs

/-- The byte of at most eight bits in arrival order: New from bit 7 down (20_memory.md R58), Old from bit 0 up (R59),
missing positions zero (R112). -/
def byteOfBits : Format → List Bool → Byte
  | .new, bits => placeBits (fun j => 7 - j) 0 bits
  | .old, bits => placeBits (fun j => j) 0 bits

/-- The bytes of a bit sequence: eight bits a byte, and a padded byte for 1 to 7 bits left over (R110, R113). -/
def packBits (f : Format) : List Bool → List Byte
  | b0 :: b1 :: b2 :: b3 :: b4 :: b5 :: b6 :: b7 :: rest =>
    byteOfBits f [b0, b1, b2, b3, b4, b5, b6, b7] :: packBits f rest
  | [] => []
  | bits => [byteOfBits f bits]

/-- The must-be-zero bits of `MOD` and `DATA` of the operation `op`, as a mask over the word (30_encoding.md R84 to R86):
none of DATA for the sample form, DATA[15:8] for the byte form, MOD[3:2] for the start form. -/
def mbzMask (op : Nat) : Word :=
  match op with
  | 1 => 0x0C00FFFF#32
  | 2 => 0x0F000000#32
  | 4 => 0x0C00FFFF#32
  | 5 => 0x0F00FF00#32
  | 6 => 0x0C00FFFF#32
  | 7 => 0x0F00FF00#32
  | _ => 0x0F00FFFF#32

/-- `popcount(b)`: the number of 1 bits of `b` (00_scope.md R10). -/
def popcount (b : Byte) : Nat := (List.range 8).countP fun i => b.getLsbD i

end Sys2Proof.Reference
end

