-- ==== Sys2Proof/Safety.lean ====
section
/-! DEFINITION. What counts as a safe run, in the terms claims use: the invariants the rules give the state, and the
error predicate of 93_implementation_defined.md row 5. -/

namespace Sys2Proof.Machine

/-- The invariant of PDEC (10_state.md R24): the accumulator's positions that hold no bit yet are zero, and an
unprimed decoder has counted nothing. `bitpos` is in 0..7 by its type. -/
abbrev Decoder.Inv (d : Decoder) : Prop :=
  (d.fmt = .new → ∀ i < 8, d.bitpos.toNat ≤ i → d.acc.getLsbD i = false) ∧
  (d.fmt = .old → ∀ i < 8, i ≤ 7 - d.bitpos.toNat → d.acc.getLsbD i = false) ∧
  (d.primed = false → d.cnt = 0#8 ∧ d.firstPart = false)

/-- The invariant of the error state (10_state.md R28; 60_exceptions.md R213, R215): while no illegal command has come,
cause and word are zero; afterwards the captured word is an illegal word of the recorded cause. -/
abbrev ErrorState.Inv (e : ErrorState) : Prop :=
  (e.ill = false → e.cause = .none ∧ e.illcmd = 0#32) ∧
  (e.ill = true → e.cause ≠ .none ∧ decode e.illcmd = .illegal e.cause)

/-- The invariant of PTRC (10_state.md R26): the skip count is at most the longest header's length. -/
abbrev Transcoder.Inv (t : Transcoder) : Prop := t.skip.toNat ≤ params.hdrLenOld

/-- The invariant of the block: those of its parts. -/
structure State.Inv (s : State) : Prop where
  dec : s.dec.Inv
  err : s.err.Inv
  trc : s.trc.Inv

/-- A run that 93_implementation_defined.md row 5 treats as faulted: an illegal command has been accepted since reset.
The block itself goes on (60_exceptions.md R220). -/
abbrev State.Faulted (s : State) : Prop := s.err.ill = true

end Sys2Proof.Machine
end

