-- ==== Sys2Proof/Certificates/Slice0/Obligations.lean ====
section
/-! DEFINITION. The statements for the provers. Each says what the block or one of its commands does; the rule of spec/
it formalises stands in its docstring. Every statement that a command, a list of commands or a step answers a next state
rests on the model's unbounded channels (10_state.md R27; 70_reset_and_hazards.md R248; log 2): on hardware it says what
is true once the host has drained enough for the command to complete. -/

open Sys2Proof Sys2Proof.Machine Sys2Proof.Reference

/-! ## Encoding -/

/-- Every command's word decodes to that command, with every operand at every value (R87, R88). -/
def Obligations.DecodeEncodeAgree : Prop :=
  ∀ i : Instr, decode (encode i) = .legal i

/-- A legal word is the word of the command it decodes to: no legal command has a second word (R87, R88). -/
def Obligations.EncodeDecodeAgree : Prop :=
  ∀ (w : Word) (i : Instr), decode w = .legal i → encode i = w

/-- R88: a word that matches a row decodes to that row's command, its operands taken from the bits the row names; a word
that matches no row is illegal; and no two rows overlap. -/
def Obligations.LegalWordsAreTheTableRows : Prop :=
  (∀ w : Word, w &&& 0xFFFFFFFF#32 = 0x00000000#32 → decode w = .legal .nop) ∧
  (∀ w : Word, w &&& 0xFCFFFFFF#32 = 0x10000000#32 →
    decode w = .legal (.decStart (.ofBit (w.getLsbD 24)) (.ofBit (w.getLsbD 25)))) ∧
  (∀ w : Word, w &&& 0xFFFF0000#32 = 0x20000000#32 → decode w = .legal (.decSample (w.setWidth 16))) ∧
  (∀ w : Word, w &&& 0xFFFFFFFF#32 = 0x30000000#32 → decode w = .legal .decFlush) ∧
  (∀ w : Word, w &&& 0xFDFFFFFF#32 = 0x40000000#32 → decode w = .legal (.encStart (.ofBit (w.getLsbD 25)))) ∧
  (∀ w : Word, w &&& 0xFFFFFF00#32 = 0x50000000#32 → decode w = .legal (.encByte (w.setWidth 8))) ∧
  (∀ w : Word, w &&& 0xFCFFFFFF#32 = 0x60000000#32 →
    decode w = .legal (.trcStart (.ofBit (w.getLsbD 24)) (.ofBit (w.getLsbD 25)))) ∧
  (∀ w : Word, w &&& 0xFFFFFF00#32 = 0x70000000#32 → decode w = .legal (.trcByte (w.setWidth 8))) ∧
  (∀ w : Word, (∀ row ∈ opcodeRows, row.covers w = false) → ∃ c, decode w = .illegal c) ∧
  opcodeRows.Pairwise (fun a b => ∀ w : Word, ¬ (a.covers w = true ∧ b.covers w = true))

/-- R214: the cause of an illegal word is that of the first failing check: `OP`, then `RSV` and the must-be-zero bits,
then the format check of ENC_START. -/
def Obligations.IllegalCauseIsTheFirstFailingCheck : Prop :=
  ∀ (w : Word) (c : Cause), decode w = .illegal c ↔
    (c = .illOp ∧ 8#4 ≤ w.extractLsb' 28 4) ∨
    (c = .illField ∧ w.extractLsb' 28 4 < 8#4 ∧
      (w &&& 0x00FF0000#32 ≠ 0#32 ∨ w &&& mbzMask (w.extractLsb' 28 4).toNat ≠ 0#32)) ∨
    (c = .illFmt ∧ w.extractLsb' 28 4 = 4#4 ∧ w &&& 0x00FF0000#32 = 0#32 ∧
      w &&& mbzMask 4 = 0#32 ∧ w.getLsbD 24 = true)

/-- Words written out from the encodings of R88 and R92 decode to the commands they stand for, one of each family. -/
def Obligations.SpelledWordsDecode : Prop :=
  decode 0b0000_0000_00000000_0000000000000000#32 = .legal .nop ∧
  decode 0b0001_0011_00000000_0000000000000000#32 = .legal (.decStart .old .raw) ∧
  decode 0b0010_0000_00000000_1111111111111110#32 = .legal (.decSample 0xFFFE#16) ∧
  decode 0b0101_0000_00000000_0000000010100101#32 = .legal (.encByte 0xA5#8) ∧
  decode 0b0110_0001_00000000_0000000000000000#32 = .legal (.trcStart .old .image)

/-- R92, R93: the words of every assembler line. The lines without an immediate and the alias give the words of R92's
table; a line with an immediate gives the table's word in range and is refused out of range; a DEC_RUN expands to its
copies; the list lines expand to their single lines in order and are refused if one of those is. A `DEC_RUN 0n` is stated
for `n >= 1` only: R93 does not say what `n = 0` is there (log 15). -/
def Obligations.AssemblerRefusesOutOfRange : Prop :=
  (assemble .nop = some [0x00000000#32] ∧ assemble .decFlush = some [0x30000000#32] ∧
    assemble (.decStart .new .image) = some [0x10000000#32] ∧ assemble (.decStart .old .image) = some [0x11000000#32] ∧
    assemble (.decStart .new .raw) = some [0x12000000#32] ∧ assemble (.decStart .old .raw) = some [0x13000000#32] ∧
    assemble (.encStart .image) = some [0x40000000#32] ∧ assemble (.encStart .raw) = some [0x42000000#32] ∧
    assemble (.trcStart .new .image) = some [0x60000000#32] ∧ assemble (.trcStart .old .image) = some [0x61000000#32] ∧
    assemble (.trcStart .new .raw) = some [0x62000000#32] ∧ assemble (.trcStart .old .raw) = some [0x63000000#32] ∧
    assemble .trcStartRaw = some [0x62000000#32]) ∧
  (∀ v : Int, assemble (.decSample (.dec v)) =
    if -32768 ≤ v ∧ v ≤ 32767 then some [0x20000000#32 ||| (BitVec.ofInt 16 v).setWidth 32] else none) ∧
  (∀ v : Nat, assemble (.decSample (.hex v)) =
    if v ≤ 0xFFFF then some [0x20000000#32 ||| BitVec.ofNat 32 v] else none) ∧
  (∀ v : Int, assemble (.encByte (.dec v)) =
    if 0 ≤ v ∧ v ≤ 255 then some [0x50000000#32 ||| BitVec.ofInt 32 v] else none) ∧
  (∀ v : Nat, assemble (.encByte (.hex v)) =
    if v ≤ 0xFF then some [0x50000000#32 ||| BitVec.ofNat 32 v] else none) ∧
  (∀ v : Int, assemble (.trcByte (.dec v)) =
    if 0 ≤ v ∧ v ≤ 255 then some [0x70000000#32 ||| BitVec.ofInt 32 v] else none) ∧
  (∀ v : Nat, assemble (.trcByte (.hex v)) =
    if v ≤ 0xFF then some [0x70000000#32 ||| BitVec.ofNat 32 v] else none) ∧
  (∀ n : Nat,
    assemble (.decRun .plus n) = (if 1 ≤ n then some (List.replicate n 0x20000001#32) else none) ∧
    assemble (.decRun .minus n) = (if 1 ≤ n then some (List.replicate n 0x2000FFFF#32) else none) ∧
    (1 ≤ n → assemble (.decRun .zero n) = some (List.replicate n 0x20000000#32))) ∧
  (∀ (b : Imm) (bs : List Imm),
    assemble (.encBytes b bs) = ((b :: bs).mapM fun imm => assemble (.encByte imm)).map List.flatten ∧
    assemble (.trcBytes b bs) = ((b :: bs).mapM fun imm => assemble (.trcByte imm)).map List.flatten ∧
    assemble (.decSamples b bs) = ((b :: bs).mapM fun imm => assemble (.decSample imm)).map List.flatten)

/-! ## Steps and port events -/

/-- When the word at the command port decodes to a command, the step is that command executed (R65, R87). That the
word no longer waits in `input` is the model's form of taking it (log 1). -/
def Obligations.StepRunsTheDecodedCommand : Prop :=
  ∀ (s : State) (w : Word) (i : Instr) (rest : List PortEvent),
    s.input = .command w :: rest → decode w = .legal i → step s = exec i { s with input := rest }

/-- R215, R216: an illegal word records itself and its cause if it is the first since reset; nothing else changes.
That the word no longer waits in `input` is the model's form of taking it (log 1). -/
def Obligations.IllegalCommandOnlyRecordsTheFirst : Prop :=
  ∀ (s : State) (w : Word) (c : Cause) (rest : List PortEvent),
    s.input = .command w :: rest → decode w = .illegal c →
    (s.err.ill = false →
      step s = .next { s with input := rest, err := { ill := true, cause := c, illcmd := w } }) ∧
    (s.err.ill = true → step s = .next { s with input := rest })

/-- R220: a legal command does to everything but S what it would do without the recorded error, and leaves S alone. -/
def Obligations.LegalCommandsRunAfterAnError : Prop :=
  ∀ (i : Instr) (s : State) (e : ErrorState),
    ∃ t, exec i s = .next t ∧ t.err = s.err ∧ exec i { s with err := e } = .next { t with err := e }

/-- R228: with nothing at the ports (an empty `input`, log 1), a step changes nothing. -/
def Obligations.IdleStepChangesNothing : Prop :=
  ∀ s : State, s.input = [] → step s = .next s

/-- The host takes the front element of a channel, and nothing but that channel changes (R27, R63). That a take at an
empty channel changes nothing is the model's reading of the handshake (log 5). -/
def Obligations.DrainTakesTheFrontElement : Prop :=
  ∀ (s : State) (rest : List PortEvent),
    (∀ v vs, s.input = .takeDout :: rest → s.dout = v :: vs →
      s.doutPort = some v ∧ step s = .next { s with input := rest, dout := vs }) ∧
    (∀ v vs, s.input = .takeTout :: rest → s.tout = v :: vs →
      s.toutPort = some v ∧ step s = .next { s with input := rest, tout := vs }) ∧
    (∀ v vs, s.input = .takeSout :: rest → s.sout = v :: vs →
      s.soutPort = some v ∧ step s = .next { s with input := rest, sout := vs }) ∧
    (s.input = .takeDout :: rest → s.dout = [] → step s = .next { s with input := rest }) ∧
    (s.input = .takeTout :: rest → s.tout = [] → step s = .next { s with input := rest }) ∧
    (s.input = .takeSout :: rest → s.sout = [] → step s = .next { s with input := rest })

/-- R240 for a reset between commands: every piece of state takes its reset value; the host's coming events stay (log 4). -/
def Obligations.ResetEventResetsEverything : Prop :=
  ∀ (s : State) (rest : List PortEvent),
    s.input = .reset :: rest → step s = .next { State.reset with input := rest }

/-- No step of the model stops, and each takes the next port event, where there is one; an idle step takes none (R220,
R221, R249). The queue of port events is the model's own (log 1). That no step waits rests on the unbounded channels the
spec gives the model (R27, R248; log 2, unsafe for such claims): hardware whose host never drains can stall for good, and
on it this statement assumes that the host drains (93_implementation_defined.md row 10). -/
def Obligations.EveryStepAnswersNext : Prop :=
  ∀ s : State, ∃ t, step s = .next t ∧ t.input = s.input.tail

/-- Any sequence of commands runs to its end from any state (R221, R223), with S and the queue of port events (log 1)
unchanged. That it runs to its end rests on the unbounded channels the spec gives the model (R27, R248; log 2, unsafe for
such claims): on hardware it assumes that the host drains the channels (93_implementation_defined.md row 10). -/
def Obligations.EveryCommandSequenceRuns : Prop :=
  ∀ (is : List Instr) (s : State), ∃ t, runCommands is s = .next t ∧ t.input = s.input ∧ t.err = s.err

/-- The words of a list of commands, offered one after the other (log 1), run those commands in that order (R65). -/
def Obligations.OfferedWordsRunInOrder : Prop :=
  ∀ (is : List Instr) (s : State) (rest : List PortEvent),
    core.run is.length { s with input := is.map (fun i => .command (encode i)) ++ rest } =
      runCommands is { s with input := rest }

/-! ## Reset and the status port -/

/-- R37: the value of every piece of state after reset, and every status register at zero. -/
def Obligations.ResetValues : Prop :=
  State.reset.dec = { fmt := .new, primed := false, prev := false, cnt := 0#8, firstPart := false, acc := 0#8, bitpos := 0#3 } ∧
  State.reset.enc.skip = 0#1 ∧ State.reset.trc.skip = 0#9 ∧
  State.reset.err = { ill := false, cause := .none, illcmd := 0#32 } ∧
  State.reset.dout = [] ∧ State.reset.tout = [] ∧ State.reset.sout = [] ∧
  ∀ idx : BitVec 3, State.reset.statusPort idx = 0x00000000#32

/-- R242: after reset each unit is as its raw-mode START leaves it, and none of those STARTs adds anything. -/
def Obligations.ResetActsAsTheRawStarts : Prop :=
  exec (.decStart .new .raw) State.reset = .next State.reset ∧
  exec (.encStart .raw) State.reset = .next State.reset ∧
  ∀ f, exec (.trcStart f .raw) State.reset = .next State.reset

/-- The invariant holds after reset. -/
def Obligations.InvariantHoldsAtReset : Prop := State.reset.Inv

/-- Every step keeps the invariant of the block: R24 of the decoder, R26 of the transcoder, R28 with R213 and R215 of
the error state. -/
def Obligations.StepKeepsTheInvariant : Prop :=
  ∀ s t : State, s.Inv → step s = .next t → t.Inv

/-- R30, R31, R32, R33, R35: the place of every field in its status register, the reserved bits zero, and each
register zero after reset; with the codes that CAUSE (R213) and FMT (R23) show. -/
def Obligations.StatusRegisterLayout : Prop :=
  (Cause.none.code = 0#2 ∧ Cause.illOp.code = 1#2 ∧ Cause.illField.code = 2#2 ∧ Cause.illFmt.code = 3#2) ∧
  (Format.new.toBit = false ∧ Format.old.toBit = true) ∧
  (∀ s : State,
    ((s.statusPort 0#3).getLsbD 0 = s.err.ill ∧
      (s.statusPort 0#3).extractLsb' 1 2 = s.err.cause.code ∧
      (s.statusPort 0#3).extractLsb' 3 29 = 0#29) ∧
    ((s.statusPort 1#3).getLsbD 0 = s.dec.fmt.toBit ∧
      (s.statusPort 1#3).getLsbD 1 = s.dec.primed ∧
      (s.statusPort 1#3).getLsbD 2 = s.dec.prev ∧
      (s.statusPort 1#3).getLsbD 3 = s.dec.firstPart ∧
      (s.statusPort 1#3).extractLsb' 4 3 = s.dec.bitpos ∧
      (s.statusPort 1#3).getLsbD 7 = false ∧
      (s.statusPort 1#3).extractLsb' 8 8 = s.dec.acc ∧
      (s.statusPort 1#3).extractLsb' 16 8 = s.dec.cnt ∧
      (s.statusPort 1#3).extractLsb' 24 8 = 0#8) ∧
    ((s.statusPort 2#3).extractLsb' 0 1 = s.enc.skip ∧
      (s.statusPort 2#3).extractLsb' 1 31 = 0#31) ∧
    ((s.statusPort 3#3).extractLsb' 0 9 = s.trc.skip ∧
      (s.statusPort 3#3).extractLsb' 9 23 = 0#23) ∧
    s.statusPort 4#3 = s.err.illcmd) ∧
  (∀ idx : BitVec 3, State.reset.statusPort idx = 0x00000000#32)

/-- The reserved indices of the status port read zero in every state (R29, R64). -/
def Obligations.ReservedStatusIndicesReadZero : Prop :=
  ∀ s : State, s.statusPort 5#3 = 0#32 ∧ s.statusPort 6#3 = 0#32 ∧ s.statusPort 7#3 = 0#32

/-- The status registers show the full state of every unit: two states that read alike have equal D, E, T and S (R227). -/
def Obligations.StatusPortShowsTheFullState : Prop :=
  ∀ s t : State, (∀ idx : BitVec 3, s.statusPort idx = t.statusPort idx) →
    s.dec = t.dec ∧ s.enc = t.enc ∧ s.trc = t.trc ∧ s.err = t.err

/-! ## NOP -/

/-- R200: the word of NOP is zero, it changes nothing, and any other word with `OP = 0x0` is illegal with ILL_FIELD. -/
def Obligations.NopRule : Prop :=
  encode .nop = 0x00000000#32 ∧
  (∀ s : State, exec .nop s = .next s) ∧
  (∀ w : Word, w.extractLsb' 28 4 = 0#4 → w ≠ 0#32 → decode w = .illegal .illField)

/-! ## PDEC -/

/-- R101: the word of DEC_START, and its effect: D in its initial state in format `f`, the header of `f` to DOUT in image
mode, nothing else changed. -/
def Obligations.DecStartRule : Prop :=
  ∀ (f : Format) (r : Mode) (s : State),
    encode (.decStart f r) =
      (0x10000000#32 ||| (if f = .old then 0x01000000#32 else 0#32) ||| (if r = .raw then 0x02000000#32 else 0#32)) ∧
    exec (.decStart f r) s = .next { s with
      dec := { fmt := f, primed := false, prev := false, cnt := 0#8, firstPart := false, acc := 0#8, bitpos := 0#3 }
      dout := s.dout ++
        (match r, f with
          | .raw, _ => []
          | .image, .new => [0x4F#8]
          | .image, .old => oldHeader) }

/-- R104: polarity is the sign test, in numbers and in bits. -/
def Obligations.PolarityIsTheSignTest : Prop :=
  ∀ x : Sample,
    (polarity x = true ↔ 0 < x.toInt) ∧ (polarity x = true ↔ x.getLsbD 15 = false ∧ x ≠ 0#16)

/-- R102: the word of DEC_SAMPLE, and its effect in each case: the first sample of a session, a run that goes on, a
second half that ends, and a first half that ends (scored, shifted in, and emitted at the eighth bit). -/
def Obligations.DecSampleRule : Prop :=
  ∀ (x : Sample) (s : State),
    encode (.decSample x) = 0x20000000#32 ||| x.setWidth 32 ∧
    (s.dec.primed = false →
      exec (.decSample x) s = .next { s with
        dec := { s.dec with primed := true, prev := polarity x, cnt := 1#8 } }) ∧
    (s.dec.primed = true → polarity x = s.dec.prev →
      exec (.decSample x) s = .next { s with
        dec := { s.dec with cnt := if s.dec.cnt = 255#8 then 255#8 else s.dec.cnt + 1#8 } }) ∧
    (s.dec.primed = true → polarity x ≠ s.dec.prev → s.dec.firstPart = true →
      exec (.decSample x) s = .next { s with
        dec := { s.dec with firstPart := false, cnt := 0#8, prev := polarity x } }) ∧
    (s.dec.primed = true → polarity x ≠ s.dec.prev → s.dec.firstPart = false →
      ∀ acc' : Byte,
        acc' = (match s.dec.fmt with
          | .new => (s.dec.acc <<< 1) ||| (if 11 ≤ s.dec.cnt.toNat then 0x01#8 else 0x00#8)
          | .old => (s.dec.acc >>> 1) ||| (if 11 ≤ s.dec.cnt.toNat then 0x80#8 else 0x00#8)) →
        (s.dec.bitpos = 7#3 →
          exec (.decSample x) s = .next { s with
            dec := { s.dec with firstPart := true, cnt := 0#8, prev := polarity x, acc := 0x00#8, bitpos := 0#3 }
            dout := s.dout ++ [acc'] }) ∧
        (s.dec.bitpos ≠ 7#3 →
          exec (.decSample x) s = .next { s with
            dec := { s.dec with firstPart := true, cnt := 0#8, prev := polarity x, acc := acc', bitpos := s.dec.bitpos + 1#3 } }))

/-- R105: the counter at the end of a run of L samples of one polarity: L in the first run of a session, L - 1 in a later
run, saturated at 255. -/
def Obligations.RunCounterRule : Prop :=
  ∀ (s : State) (p : Bool) (x : Sample) (xs : List Sample), (∀ y ∈ x :: xs, polarity y = p) →
    (s.dec.primed = false →
      runCommands ((x :: xs).map .decSample) s = .next { s with
        dec := { s.dec with primed := true, prev := p, cnt := BitVec.ofNat 8 (min 255 (x :: xs).length) } }) ∧
    (s.dec.primed = true → s.dec.prev = !p →
      ∃ t, runCommands ((x :: xs).map .decSample) s = .next t ∧ t.dec.primed = true ∧ t.dec.prev = p ∧
        t.dec.cnt = BitVec.ofNat 8 (min 255 ((x :: xs).length - 1)))

/-- R118: a scored run of L samples that the next sample closes gives bit 1 when L >= 11 in the first run of a session, and
when L >= 12 in a later run. -/
def Obligations.RunLengthTable : Prop :=
  ∀ (s : State) (p : Bool) (x : Sample) (xs : List Sample) (close : Sample),
    (∀ y ∈ x :: xs, polarity y = p) → polarity close = (!p) →
    (s.dec.primed = false → s.dec.firstPart = false →
      ∃ t, runCommands ((x :: xs ++ [close]).map .decSample) s = .next t ∧
        t.dec.acc = (s.dec.accumulate (decide (11 ≤ (x :: xs).length))).1.acc ∧
        t.dec.bitpos = (s.dec.accumulate (decide (11 ≤ (x :: xs).length))).1.bitpos ∧
        t.dec.firstPart = true ∧
        t.dout = s.dout ++ (s.dec.accumulate (decide (11 ≤ (x :: xs).length))).2) ∧
    (s.dec.primed = true → s.dec.prev = (!p) → s.dec.firstPart = true →
      ∃ t, runCommands ((x :: xs ++ [close]).map .decSample) s = .next t ∧
        t.dec.acc = (s.dec.accumulate (decide (12 ≤ (x :: xs).length))).1.acc ∧
        t.dec.bitpos = (s.dec.accumulate (decide (12 ≤ (x :: xs).length))).1.bitpos ∧
        t.dec.firstPart = true ∧
        t.dout = s.dout ++ (s.dec.accumulate (decide (12 ≤ (x :: xs).length))).2)

/-- R111: the word of DEC_FLUSH, and its effect: a partial byte padded with zeros and emitted, D in its initial state with
the format kept, nothing else changed. -/
def Obligations.DecFlushRule : Prop :=
  encode .decFlush = 0x30000000#32 ∧
  ∀ s : State, exec .decFlush s = .next { s with
    dec := { fmt := s.dec.fmt, primed := false, prev := false, cnt := 0#8, firstPart := false, acc := 0#8, bitpos := 0#3 }
    dout := s.dout ++
      (if s.dec.bitpos = 0#3 then []
        else match s.dec.fmt with
          | .new => [s.dec.acc <<< (8 - s.dec.bitpos.toNat)]
          | .old => [s.dec.acc >>> (8 - s.dec.bitpos.toNat)]) }

/-- Eight bits shifted into an empty accumulator complete exactly one byte and leave the accumulator empty: the first
seven emit nothing and the eighth emits the byte (R110); the first bit is bit 7 of a New byte (R58, R108) and bit 0 of an
Old byte (R59, R109). -/
def Obligations.EightBitsMakeAByte : Prop :=
  ∀ (d : Decoder) (b0 b1 b2 b3 b4 b5 b6 b7 : Bool), d.acc = 0#8 → d.bitpos = 0#3 →
    let r0 := d.accumulate b0
    let r1 := r0.1.accumulate b1
    let r2 := r1.1.accumulate b2
    let r3 := r2.1.accumulate b3
    let r4 := r3.1.accumulate b4
    let r5 := r4.1.accumulate b5
    let r6 := r5.1.accumulate b6
    r0.2 = [] ∧ r1.2 = [] ∧ r2.2 = [] ∧ r3.2 = [] ∧ r4.2 = [] ∧ r5.2 = [] ∧ r6.2 = [] ∧
    ∃ v : Byte, r6.1.accumulate b7 = (d, [v]) ∧
      ∀ j < 8, [b0, b1, b2, b3, b4, b5, b6, b7][j]? =
        some (match d.fmt with
          | .new => v.getLsbD (7 - j)
          | .old => v.getLsbD j)

/-- A whole decode is run-length decoding: DOUT receives the header, then the bytes packed from the bits scored in every
other closed run of the polarities, whatever the run lengths (R100, R105 to R115, R118, R245). -/
def Obligations.DecodeIsRunLengthDecoding : Prop :=
  ∀ (f : Format) (r : Mode) (xs : List Sample) (s : State),
    runCommands (decodeCommands f r xs) s = .next { s with
      dec := { fmt := f, primed := false, prev := false, cnt := 0#8, firstPart := false, acc := 0#8, bitpos := 0#3 }
      dout := s.dout ++ startHeader params f r ++ packBits f (payloadBits (xs.map polarity)) }

/-- R117: the same samples decoded in a New and in an Old session give payloads of which each Old byte is the
bit-reversal of the New byte at its place; only the headers differ besides. -/
def Obligations.FormatLaw : Prop :=
  ∀ (xs : List Sample) (r : Mode) (s : State), ∃ (payload : List Byte) (t u : State),
    runCommands (decodeCommands .new r xs) s = .next t ∧
    runCommands (decodeCommands .old r xs) s = .next u ∧
    t.dout = s.dout ++ startHeader params .new r ++ payload ∧
    u.dout = s.dout ++ startHeader params .old r ++ payload.map brev

/-! ## PENC -/

/-- R141: the word of ENC_START, and its effect: E.skip is 1 in image mode and 0 in raw mode, nothing else changes. -/
def Obligations.EncStartRule : Prop :=
  ∀ (r : Mode) (s : State),
    encode (.encStart r) = 0x40000000#32 ||| (if r = .raw then 0x02000000#32 else 0#32) ∧
    exec (.encStart r) s = .next { s with enc := { skip := if r = .image then 1#1 else 0#1 } }

/-- R142: the word of ENC_BYTE, and its effect: a byte to skip is dropped; any other is emitted bit 7 first, each bit a
low run and a high run of 17 samples for a 1 and of 9 for a 0. -/
def Obligations.EncByteRule : Prop :=
  ∀ (b : Byte) (s : State),
    encode (.encByte b) = 0x50000000#32 ||| b.setWidth 32 ∧
    (s.enc.skip ≠ 0#1 → exec (.encByte b) s = .next { s with enc := { skip := s.enc.skip - 1#1 } }) ∧
    (s.enc.skip = 0#1 → exec (.encByte b) s = .next { s with
      sout := s.sout ++ [7, 6, 5, 4, 3, 2, 1, 0].flatMap fun i =>
        List.replicate (if b.getLsbD i then 17 else 9) 0xA000#16 ++
        List.replicate (if b.getLsbD i then 17 else 9) 0x6000#16 })

/-- R147: an encoded byte emits 144 + 16 × popcount samples, a dropped byte none. -/
def Obligations.EncByteSampleCount : Prop :=
  ∀ (b : Byte) (s : State), ∃ t, exec (.encByte b) s = .next t ∧
    (s.enc.skip = 0#1 →
      t.sout.length = s.sout.length + 2 * (9 * (8 - popcount b) + 17 * popcount b) ∧
      t.sout.length = s.sout.length + (144 + 16 * popcount b)) ∧
    (s.enc.skip ≠ 0#1 → t.sout.length = s.sout.length)

/-- R148: in image mode the first byte of an encode is dropped, in raw mode none; the waveforms of all the others follow
one another without gaps (R145, R149). -/
def Obligations.EncodeDropsOnlyTheSync : Prop :=
  ∀ (bs : List Byte) (s : State),
    runCommands (encodeCommands .raw bs) s = .next { s with
      enc := { skip := 0#1 }, sout := s.sout ++ bs.flatMap (byteWave params) } ∧
    runCommands (encodeCommands .image bs) s = .next { s with
      enc := { skip := if bs = [] then 1#1 else 0#1 }, sout := s.sout ++ (bs.drop 1).flatMap (byteWave params) }

/-- R150: the waveform of any payload decodes to that payload, in raw mode and in image mode, and to its bit-reversed
bytes in an Old session; the encode and the decode each run from any state. -/
def Obligations.RoundTripLaw : Prop :=
  ∀ (payload : List Byte) (s : State), ∃ (wave : List Sample) (s1 : State),
    runCommands (encodeCommands .raw payload) s = .next s1 ∧ s1.sout = s.sout ++ wave ∧
    (∃ s2, runCommands (encodeCommands .image (0x4F#8 :: payload)) s = .next s2 ∧ s2.sout = s.sout ++ wave) ∧
    ∀ u : State,
      (∃ t, runCommands (decodeCommands .new .raw wave) u = .next t ∧ t.dout = u.dout ++ payload) ∧
      (∃ t, runCommands (decodeCommands .new .image wave) u = .next t ∧ t.dout = u.dout ++ (0x4F#8 :: payload)) ∧
      (∃ t, runCommands (decodeCommands .old .raw wave) u = .next t ∧ t.dout = u.dout ++ payload.map brev)

/-- The round trip holds for every configuration that meets the constraints of R8, not only for the spec's values: the
waveform of any payload, decoded from the initial state and flushed, gives the payload (R8, R150). -/
def Obligations.RoundTripForEveryValidConfig : Prop :=
  ∀ (c : Config), c.Valid → ∀ (payload : List Byte),
    (((Decoder.initial .new).samples c (payload.flatMap (byteWave c))).2 ++
      ((Decoder.initial .new).samples c (payload.flatMap (byteWave c))).1.flush.2 = payload) ∧
    (((Decoder.initial .old).samples c (payload.flatMap (byteWave c))).2 ++
      ((Decoder.initial .old).samples c (payload.flatMap (byteWave c))).1.flush.2 = payload.map brev)

/-! ## FRAMING and PTRC -/

/-- R57: the FRAMING table, and each header as long as its header length. -/
def Obligations.FramingTable : Prop :=
  header params .new = [0x4F#8] ∧ hdrlen params .new = 1 ∧
  header params .old = oldHeader ∧ hdrlen params .old = 360 ∧
  ∀ f, (header params f).length = hdrlen params f

/-- The spec's parameter values meet the constraints of R8. -/
def Obligations.ParametersMeetTheConstraints : Prop := params.Valid

/-- R170: bit `i` of the bit-reversal is bit `7 - i` of the byte. -/
def Obligations.BrevReversesBits : Prop :=
  ∀ (b : Byte) (i : Nat), i < 8 → (brev b).getLsbD i = b.getLsbD (7 - i)

/-- R172: bit-reversal is an involution, its fixed points are the 16 palindromic bytes, and it has the source's three
values. -/
def Obligations.BrevIsAnInvolution : Prop :=
  (∀ b : Byte, brev (brev b) = b) ∧
  (∀ b : Byte, brev b = b ↔ ∀ i < 8, b.getLsbD i = b.getLsbD (7 - i)) ∧
  ((List.range 256).filter fun n => brev (BitVec.ofNat 8 n) == BitVec.ofNat 8 n).length = 16 ∧
  brev 0x0F#8 = 0xF0#8 ∧ brev 0x80#8 = 0x01#8 ∧ brev 0xA5#8 = 0xA5#8

/-- R171: the three swap stages with their masks compute the bit-reversal. -/
def Obligations.BrevIsThreeSwapStages : Prop :=
  ∀ b t1 t2 : Byte, t1 = (b >>> 4) ||| (b <<< 4) →
    t2 = ((t1 &&& 0xCC#8) >>> 2) ||| ((t1 &&& 0x33#8) <<< 2) →
    brev b = ((t2 &&& 0xAA#8) >>> 1) ||| ((t2 &&& 0x55#8) <<< 1)

/-- R173: the word of TRC_START, and its effect: in image mode the header of the target format to TOUT and T.skip at the
source header's length; in raw mode T.skip at 0; nothing else changed. -/
def Obligations.TrcStartRule : Prop :=
  ∀ (f : Format) (r : Mode) (s : State),
    encode (.trcStart f r) =
      (0x60000000#32 ||| (if f = .old then 0x01000000#32 else 0#32) ||| (if r = .raw then 0x02000000#32 else 0#32)) ∧
    exec (.trcStart f r) s = .next { s with
      trc := { skip := match r, f with
        | .raw, _ => 0#9
        | .image, .new => 1#9
        | .image, .old => 360#9 }
      tout := s.tout ++
        (match r, f with
          | .raw, _ => []
          | .image, .old => [0x4F#8]
          | .image, .new => oldHeader) }

/-- R174: the word of TRC_BYTE, and its effect: a header byte is dropped, any other is emitted bit-reversed. -/
def Obligations.TrcByteRule : Prop :=
  ∀ (b : Byte) (s : State),
    encode (.trcByte b) = 0x70000000#32 ||| b.setWidth 32 ∧
    (s.trc.skip ≠ 0#9 → exec (.trcByte b) s = .next { s with trc := { skip := s.trc.skip - 1#9 } }) ∧
    (s.trc.skip = 0#9 → exec (.trcByte b) s = .next { s with tout := s.tout ++ [brev b] })

/-- R175, R176, R177, R179: transcoding a whole image Old to New and New to Old, and a bare payload; an image shorter than
its header gives the target header only and leaves the rest of the header to skip. -/
def Obligations.TranscodeOfAnImage : Prop :=
  ∀ (image : List Byte) (s : State),
    runCommands (transcodeCommands .old .image image) s = .next { s with
      trc := { skip := BitVec.ofNat 9 (360 - image.length) }
      tout := s.tout ++ ([0x4F#8] ++ (image.drop 360).map brev) } ∧
    runCommands (transcodeCommands .new .image image) s = .next { s with
      trc := { skip := BitVec.ofNat 9 (1 - image.length) }
      tout := s.tout ++ (oldHeader ++ (image.drop 1).map brev) } ∧
    ∀ f, runCommands (transcodeCommands f .raw image) s = .next { s with
      trc := { skip := 0#9 }, tout := s.tout ++ image.map brev }

/-- R181: an Old image of at least 360 bytes transcoded to New and back keeps its payload and gets the fixed Old header;
a New image of at least one byte comes back as 0x4F and its payload. Each transcode runs from any state. -/
def Obligations.TranscodeRoundTrip : Prop :=
  (∀ (image : List Byte) (s u : State), 360 ≤ image.length → ∃ (j k : List Byte) (t v : State),
    runCommands (transcodeCommands .old .image image) s = .next t ∧ t.tout = s.tout ++ j ∧
    runCommands (transcodeCommands .new .image j) u = .next v ∧ v.tout = u.tout ++ k ∧
    k.drop 360 = image.drop 360 ∧ k.take 360 = oldHeader) ∧
  (∀ (image : List Byte) (s u : State), 1 ≤ image.length → ∃ (j k : List Byte) (t v : State),
    runCommands (transcodeCommands .new .image image) s = .next t ∧ t.tout = s.tout ++ j ∧
    runCommands (transcodeCommands .old .image j) u = .next v ∧ v.tout = u.tout ++ k ∧
    k = 0x4F#8 :: image.drop 1)

/-- R183: a produced Old image begins with exactly 360 header bytes, 0x68, 0x01, 0x00 and zeros; a produced New image with
one 0x4F; for both commands that produce one. -/
def Obligations.ProducedHeaderShape : Prop :=
  ∀ s : State,
    (∃ (h : List Byte) (t u : State), h.length = 360 ∧ h.take 3 = [0x68#8, 0x01#8, 0x00#8] ∧ (∀ b ∈ h.drop 3, b = 0x00#8) ∧
      exec (.decStart .old .image) s = .next t ∧ t.dout = s.dout ++ h ∧
      exec (.trcStart .new .image) s = .next u ∧ u.tout = s.tout ++ h) ∧
    (∃ t u : State,
      exec (.decStart .new .image) s = .next t ∧ t.dout = s.dout ++ [0x4F#8] ∧
      exec (.trcStart .old .image) s = .next u ∧ u.tout = s.tout ++ [0x4F#8])

/-! ## Rules about the whole block -/

/-- R38: the commands of a unit write only that unit's state and channel, and what they write there depends only on that
state. -/
def Obligations.UnitsAreIndependent : Prop :=
  (∀ (i : Instr) (s s' : State), i.unit = .pdec → s.dec = s'.dec → ∃ (t t' : State) (out : List Byte),
    exec i s = .next t ∧ exec i s' = .next t' ∧ t.dec = t'.dec ∧
    t.dout = s.dout ++ out ∧ t'.dout = s'.dout ++ out ∧
    t.enc = s.enc ∧ t.trc = s.trc ∧ t.err = s.err ∧ t.tout = s.tout ∧ t.sout = s.sout ∧ t.input = s.input) ∧
  (∀ (i : Instr) (s s' : State), i.unit = .penc → s.enc = s'.enc → ∃ (t t' : State) (out : List Sample),
    exec i s = .next t ∧ exec i s' = .next t' ∧ t.enc = t'.enc ∧
    t.sout = s.sout ++ out ∧ t'.sout = s'.sout ++ out ∧
    t.dec = s.dec ∧ t.trc = s.trc ∧ t.err = s.err ∧ t.dout = s.dout ∧ t.tout = s.tout ∧ t.input = s.input) ∧
  (∀ (i : Instr) (s s' : State), i.unit = .ptrc → s.trc = s'.trc → ∃ (t t' : State) (out : List Byte),
    exec i s = .next t ∧ exec i s' = .next t' ∧ t.trc = t'.trc ∧
    t.tout = s.tout ++ out ∧ t'.tout = s'.tout ++ out ∧
    t.dec = s.dec ∧ t.enc = s.enc ∧ t.err = s.err ∧ t.dout = s.dout ∧ t.sout = s.sout ∧ t.input = s.input)

/-- The flags of PDEC beside the ones a command writes, and its format: DEC_SAMPLE keeps the format, and on a sample that
closes no run it keeps the toggle, the accumulator and the bit position; DEC_FLUSH keeps the format (R34, R60, R253). -/
def Obligations.DecoderFieldFrame : Prop :=
  ∀ s : State,
    (∀ x : Sample, ∃ t, exec (.decSample x) s = .next t ∧ t.dec.fmt = s.dec.fmt ∧ t.dec.primed = true ∧
      t.dec.prev = polarity x ∧
      (s.dec.primed = false ∨ polarity x = s.dec.prev →
        t.dec.firstPart = s.dec.firstPart ∧ t.dec.acc = s.dec.acc ∧ t.dec.bitpos = s.dec.bitpos ∧ t.dout = s.dout)) ∧
    (∃ t, exec .decFlush s = .next t ∧ t.dec.fmt = s.dec.fmt)

/-- A sequence of commands only ever appends to the channels (R27, R65). -/
def Obligations.CommandsOnlyAppend : Prop :=
  ∀ (is : List Instr) (s t : State), runCommands is s = .next t →
    s.dout <+: t.dout ∧ s.tout <+: t.tout ∧ s.sout <+: t.sout

/-- R251: commands to different units may interleave in any way; each unit's state and channel are as if its own commands
had run alone. -/
def Obligations.InterleavingLaw : Prop :=
  ∀ (is : List Instr) (s : State), ∃ t td te tt : State,
    runCommands is s = .next t ∧
    runCommands (is.filter fun i => i.unit = .pdec) s = .next td ∧
    runCommands (is.filter fun i => i.unit = .penc) s = .next te ∧
    runCommands (is.filter fun i => i.unit = .ptrc) s = .next tt ∧
    t.dec = td.dec ∧ t.dout = td.dout ∧ t.enc = te.enc ∧ t.sout = te.sout ∧ t.trc = tt.trc ∧ t.tout = tt.tout

/-- R252: a START's outcome in its own unit does not depend on that unit's state before it: the session before it is over. -/
def Obligations.StartEndsTheSession : Prop :=
  ∀ (f : Format) (r : Mode) (s : State),
    (∀ d : Decoder, ∃ t, exec (.decStart f r) s = .next t ∧ exec (.decStart f r) { s with dec := d } = .next t) ∧
    (∀ e : Encoder, ∃ t, exec (.encStart r) s = .next t ∧ exec (.encStart r) { s with enc := e } = .next t) ∧
    (∀ q : Transcoder, ∃ t, exec (.trcStart f r) s = .next t ∧ exec (.trcStart f r) { s with trc := q } = .next t)

/-- R241: only reset clears a recorded error, and only reset or draining takes elements from a channel. -/
def Obligations.OnlyResetClears : Prop :=
  ∀ s t : State, step s = .next t → s.input.head? ≠ some .reset →
    (s.err.ill = true → t.err = s.err) ∧
    (s.input.head? ≠ some .takeDout → s.dout <+: t.dout) ∧
    (s.input.head? ≠ some .takeTout → s.tout <+: t.tout) ∧
    (s.input.head? ≠ some .takeSout → s.sout <+: t.sout)
end

