-- ==== Sys2Proof/Laws/Codec.lean ====
section
/-! SUPPORT. The fields of a word and the word of its fields are inverse to each other (30_encoding.md R81), the forms
`MOD` takes, and the error codes. -/

namespace Sys2Proof

/-- The width of a word from its fields, made visible to rewriting. -/
theorem wordOf_eq_cast (x : Fields) :
    wordOf x = BitVec.cast (by decide : 4 + 4 + 8 + 16 = 32) (x.op ++ x.mod ++ x.rsv ++ x.data) := rfl

/-- The bits of a word are the bits of its fields (R81). -/
theorem getLsbD_wordOf (x : Fields) (i : Nat) :
    (wordOf x).getLsbD i =
      if i < 16 then x.data.getLsbD i
      else if i < 24 then x.rsv.getLsbD (i - 16)
      else if i < 28 then x.mod.getLsbD (i - 24)
      else x.op.getLsbD (i - 28) := by
  simp only [wordOf_eq_cast, BitVec.getLsbD_cast, BitVec.getLsbD_append, Nat.sub_sub]
  by_cases h1 : i < 16
  · simp [h1]
  · by_cases h2 : i < 24
    · have : i - 16 < 8 := by omega
      simp [h1, h2, this]
    · by_cases h3 : i < 28
      · have a : ¬ i - 16 < 8 := by omega
        have b : i - 24 < 4 := by omega
        simp [h1, h2, h3, a, b]
      · have a : ¬ i - 16 < 8 := by omega
        have b : ¬ i - 24 < 4 := by omega
        simp [h1, h2, h3, a, b]

@[simp] theorem fieldsOf_wordOf (x : Fields) : fieldsOf (wordOf x) = x := by
  obtain ⟨op, mod, rsv, data⟩ := x
  simp only [fieldsOf, Fields.mk.injEq]
  refine ⟨?_, ?_, ?_, ?_⟩ <;>
    (apply BitVec.eq_of_getLsbD_eq; intro i hi; simp only [BitVec.getLsbD_extractLsb', getLsbD_wordOf, hi])
  · have a : ¬ 28 + i < 16 := by omega
    have b : ¬ 28 + i < 24 := by omega
    have c : ¬ 28 + i < 28 := by omega
    simp [a, b, c]
  · have a : ¬ 24 + i < 16 := by omega
    have b : ¬ 24 + i < 24 := by omega
    have c : 24 + i < 28 := by omega
    simp [a, b, c]
  · have a : ¬ 16 + i < 16 := by omega
    have b : 16 + i < 24 := by omega
    simp [a, b]
  · simp [hi]

@[simp] theorem wordOf_fieldsOf (w : Word) : wordOf (fieldsOf w) = w := by
  apply BitVec.eq_of_getLsbD_eq
  intro i hi
  simp only [getLsbD_wordOf, fieldsOf, BitVec.getLsbD_extractLsb']
  by_cases h1 : i < 16
  · simp [h1]
  · by_cases h2 : i < 24
    · have e : 16 + (i - 16) = i := by omega
      have a : i - 16 < 8 := by omega
      simp [h1, h2, e, a]
    · by_cases h3 : i < 28
      · have e : 24 + (i - 24) = i := by omega
        have a : i - 24 < 4 := by omega
        simp [h1, h2, h3, e, a]
      · have e : 28 + (i - 28) = i := by omega
        have a : i - 28 < 4 := by omega
        simp [h1, h2, h3, e, a]

/-- Masking a word masks its fields. -/
theorem fieldsOf_and (w v : Word) :
    fieldsOf (w &&& v) =
      ⟨(fieldsOf w).op &&& (fieldsOf v).op, (fieldsOf w).mod &&& (fieldsOf v).mod,
        (fieldsOf w).rsv &&& (fieldsOf v).rsv, (fieldsOf w).data &&& (fieldsOf v).data⟩ := by
  simp only [fieldsOf, Fields.mk.injEq]
  refine ⟨?_, ?_, ?_, ?_⟩ <;>
    (apply BitVec.eq_of_getLsbD_eq; intro i hi; simp [hi])

theorem fieldsOf_injective {w v : Word} (h : fieldsOf w = fieldsOf v) : w = v := by
  rw [← wordOf_fieldsOf w, h, wordOf_fieldsOf]

@[simp] theorem Format.ofBit_toBit (f : Format) : Format.ofBit f.toBit = f := by cases f <;> rfl
@[simp] theorem Format.toBit_new : Format.new.toBit = false := rfl
@[simp] theorem Format.toBit_old : Format.old.toBit = true := rfl
@[simp] theorem Mode.toBit_image : Mode.image.toBit = false := rfl
@[simp] theorem Mode.toBit_raw : Mode.raw.toBit = true := rfl
@[simp] theorem Format.toBit_ofBit (b : Bool) : (Format.ofBit b).toBit = b := by cases b <;> rfl
@[simp] theorem Mode.ofBit_toBit (r : Mode) : Mode.ofBit r.toBit = r := by cases r <;> rfl
@[simp] theorem Mode.toBit_ofBit (b : Bool) : (Mode.ofBit b).toBit = b := by cases b <;> rfl

@[simp] theorem startMod_getLsbD_zero (f : Format) (r : Mode) : (startMod f r).getLsbD 0 = f.toBit := by
  cases f <;> cases r <;> rfl
@[simp] theorem startMod_getLsbD_one (f : Format) (r : Mode) : (startMod f r).getLsbD 1 = r.toBit := by
  cases f <;> cases r <;> rfl
@[simp] theorem startMod_getElem_zero (f : Format) (r : Mode) : (startMod f r)[0] = f.toBit := by
  cases f <;> cases r <;> rfl
@[simp] theorem startMod_getElem_one (f : Format) (r : Mode) : (startMod f r)[1] = r.toBit := by
  cases f <;> cases r <;> rfl
@[simp] theorem startMod_high (f : Format) (r : Mode) : (startMod f r).extractLsb' 2 2 = 0#2 := by
  cases f <;> cases r <;> rfl

/-- A `MOD` in the start form is the one its two operand bits make (R86). -/
theorem startMod_of_high (m : BitVec 4) (h : m.extractLsb' 2 2 = 0#2) :
    startMod (.ofBit (m.getLsbD 0)) (.ofBit (m.getLsbD 1)) = m := by
  revert m; decide

/-- The bits of `DATA` in the byte form (R84). -/
theorem getLsbD_byteData (h : BitVec 8) (b : Byte) (i : Nat) :
    BitVec.getLsbD (w := 16) (h ++ b) i = if i < 8 then b.getLsbD i else h.getLsbD (i - 8) := by
  have e : BitVec.getLsbD (w := 16) (h ++ b) i = BitVec.getLsbD (w := 8 + 8) (h ++ b) i := rfl
  rw [e, BitVec.getLsbD_append]

@[simp] theorem byteData_high (b : Byte) : BitVec.extractLsb' (n := 16) 8 8 (0#8 ++ b) = 0#8 := by
  apply BitVec.eq_of_getLsbD_eq
  intro i hi
  have a : ¬ 8 + i < 8 := by omega
  simp [BitVec.getLsbD_extractLsb', getLsbD_byteData, a]

@[simp] theorem byteData_low (b : Byte) : BitVec.extractLsb' (n := 16) 0 8 (0#8 ++ b) = b := by
  apply BitVec.eq_of_getLsbD_eq
  intro i hi
  simp [getLsbD_byteData, hi]

/-- `DATA` in the byte form is the one its low byte makes (R84). -/
theorem byteData_of_high (v : BitVec 16) (h : v.extractLsb' 8 8 = 0#8) :
    (0#8 ++ v.extractLsb' 0 8 : BitVec 16) = v := by
  rw [← h]
  apply BitVec.eq_of_getLsbD_eq
  intro i hi
  rw [getLsbD_byteData]
  by_cases a : i < 8
  · simp [a]
  · have e : 8 + (i - 8) = i := by omega
    have b : i - 8 < 8 := by omega
    simp [a, b, e]

/-- A line that may be assembled gives the words of its commands (R92, R93). -/
theorem assemble_of_wellFormed {line : AsmLine} (h : line.wellFormed = true) :
    assemble line = some (line.commands.map encode) := by
  simp [assemble, h]

/-- A line that may not be assembled is refused (R92). -/
theorem assemble_of_not_wellFormed {line : AsmLine} (h : line.wellFormed = false) : assemble line = none := by
  simp [assemble, h]

theorem Cause.code_injective {a b : Cause} (h : a.code = b.code) : a = b := by
  revert h; cases a <;> cases b <;> decide

/-- The decoder's causes are the three of R213: it never answers ILLEGAL with the code 0. -/
theorem decodeFields_ne_none (x : Fields) : decodeFields x ≠ .illegal .none := by
  unfold decodeFields
  repeat' split
  all_goals simp

end Sys2Proof
end

