-- ==== Sys2Proof/Laws/State.lean ====
section
/-! SUPPORT. One lemma per field per update of State, so that no proof unfolds a record update. -/

namespace Sys2Proof.Machine

variable (s : State)

@[simp] theorem State.setDec_dec (d : Decoder) : (s.setDec d).dec = d := rfl
@[simp] theorem State.setDec_enc (d : Decoder) : (s.setDec d).enc = s.enc := rfl
@[simp] theorem State.setDec_trc (d : Decoder) : (s.setDec d).trc = s.trc := rfl
@[simp] theorem State.setDec_err (d : Decoder) : (s.setDec d).err = s.err := rfl
@[simp] theorem State.setDec_dout (d : Decoder) : (s.setDec d).dout = s.dout := rfl
@[simp] theorem State.setDec_tout (d : Decoder) : (s.setDec d).tout = s.tout := rfl
@[simp] theorem State.setDec_sout (d : Decoder) : (s.setDec d).sout = s.sout := rfl
@[simp] theorem State.setDec_input (d : Decoder) : (s.setDec d).input = s.input := rfl

@[simp] theorem State.setEnc_dec (e : Encoder) : (s.setEnc e).dec = s.dec := rfl
@[simp] theorem State.setEnc_enc (e : Encoder) : (s.setEnc e).enc = e := rfl
@[simp] theorem State.setEnc_trc (e : Encoder) : (s.setEnc e).trc = s.trc := rfl
@[simp] theorem State.setEnc_err (e : Encoder) : (s.setEnc e).err = s.err := rfl
@[simp] theorem State.setEnc_dout (e : Encoder) : (s.setEnc e).dout = s.dout := rfl
@[simp] theorem State.setEnc_tout (e : Encoder) : (s.setEnc e).tout = s.tout := rfl
@[simp] theorem State.setEnc_sout (e : Encoder) : (s.setEnc e).sout = s.sout := rfl
@[simp] theorem State.setEnc_input (e : Encoder) : (s.setEnc e).input = s.input := rfl

@[simp] theorem State.setTrc_dec (q : Transcoder) : (s.setTrc q).dec = s.dec := rfl
@[simp] theorem State.setTrc_enc (q : Transcoder) : (s.setTrc q).enc = s.enc := rfl
@[simp] theorem State.setTrc_trc (q : Transcoder) : (s.setTrc q).trc = q := rfl
@[simp] theorem State.setTrc_err (q : Transcoder) : (s.setTrc q).err = s.err := rfl
@[simp] theorem State.setTrc_dout (q : Transcoder) : (s.setTrc q).dout = s.dout := rfl
@[simp] theorem State.setTrc_tout (q : Transcoder) : (s.setTrc q).tout = s.tout := rfl
@[simp] theorem State.setTrc_sout (q : Transcoder) : (s.setTrc q).sout = s.sout := rfl
@[simp] theorem State.setTrc_input (q : Transcoder) : (s.setTrc q).input = s.input := rfl

@[simp] theorem State.setErr_dec (e : ErrorState) : (s.setErr e).dec = s.dec := rfl
@[simp] theorem State.setErr_enc (e : ErrorState) : (s.setErr e).enc = s.enc := rfl
@[simp] theorem State.setErr_trc (e : ErrorState) : (s.setErr e).trc = s.trc := rfl
@[simp] theorem State.setErr_err (e : ErrorState) : (s.setErr e).err = e := rfl
@[simp] theorem State.setErr_dout (e : ErrorState) : (s.setErr e).dout = s.dout := rfl
@[simp] theorem State.setErr_tout (e : ErrorState) : (s.setErr e).tout = s.tout := rfl
@[simp] theorem State.setErr_sout (e : ErrorState) : (s.setErr e).sout = s.sout := rfl
@[simp] theorem State.setErr_input (e : ErrorState) : (s.setErr e).input = s.input := rfl

@[simp] theorem State.emitDout_dec (vs : List Byte) : (s.emitDout vs).dec = s.dec := rfl
@[simp] theorem State.emitDout_enc (vs : List Byte) : (s.emitDout vs).enc = s.enc := rfl
@[simp] theorem State.emitDout_trc (vs : List Byte) : (s.emitDout vs).trc = s.trc := rfl
@[simp] theorem State.emitDout_err (vs : List Byte) : (s.emitDout vs).err = s.err := rfl
@[simp] theorem State.emitDout_dout (vs : List Byte) : (s.emitDout vs).dout = s.dout ++ vs := rfl
@[simp] theorem State.emitDout_tout (vs : List Byte) : (s.emitDout vs).tout = s.tout := rfl
@[simp] theorem State.emitDout_sout (vs : List Byte) : (s.emitDout vs).sout = s.sout := rfl
@[simp] theorem State.emitDout_input (vs : List Byte) : (s.emitDout vs).input = s.input := rfl

@[simp] theorem State.emitTout_dec (vs : List Byte) : (s.emitTout vs).dec = s.dec := rfl
@[simp] theorem State.emitTout_enc (vs : List Byte) : (s.emitTout vs).enc = s.enc := rfl
@[simp] theorem State.emitTout_trc (vs : List Byte) : (s.emitTout vs).trc = s.trc := rfl
@[simp] theorem State.emitTout_err (vs : List Byte) : (s.emitTout vs).err = s.err := rfl
@[simp] theorem State.emitTout_dout (vs : List Byte) : (s.emitTout vs).dout = s.dout := rfl
@[simp] theorem State.emitTout_tout (vs : List Byte) : (s.emitTout vs).tout = s.tout ++ vs := rfl
@[simp] theorem State.emitTout_sout (vs : List Byte) : (s.emitTout vs).sout = s.sout := rfl
@[simp] theorem State.emitTout_input (vs : List Byte) : (s.emitTout vs).input = s.input := rfl

@[simp] theorem State.emitSout_dec (vs : List Sample) : (s.emitSout vs).dec = s.dec := rfl
@[simp] theorem State.emitSout_enc (vs : List Sample) : (s.emitSout vs).enc = s.enc := rfl
@[simp] theorem State.emitSout_trc (vs : List Sample) : (s.emitSout vs).trc = s.trc := rfl
@[simp] theorem State.emitSout_err (vs : List Sample) : (s.emitSout vs).err = s.err := rfl
@[simp] theorem State.emitSout_dout (vs : List Sample) : (s.emitSout vs).dout = s.dout := rfl
@[simp] theorem State.emitSout_tout (vs : List Sample) : (s.emitSout vs).tout = s.tout := rfl
@[simp] theorem State.emitSout_sout (vs : List Sample) : (s.emitSout vs).sout = s.sout ++ vs := rfl
@[simp] theorem State.emitSout_input (vs : List Sample) : (s.emitSout vs).input = s.input := rfl

@[simp] theorem State.setInput_dec (es : List PortEvent) : (s.setInput es).dec = s.dec := rfl
@[simp] theorem State.setInput_enc (es : List PortEvent) : (s.setInput es).enc = s.enc := rfl
@[simp] theorem State.setInput_trc (es : List PortEvent) : (s.setInput es).trc = s.trc := rfl
@[simp] theorem State.setInput_err (es : List PortEvent) : (s.setInput es).err = s.err := rfl
@[simp] theorem State.setInput_dout (es : List PortEvent) : (s.setInput es).dout = s.dout := rfl
@[simp] theorem State.setInput_tout (es : List PortEvent) : (s.setInput es).tout = s.tout := rfl
@[simp] theorem State.setInput_sout (es : List PortEvent) : (s.setInput es).sout = s.sout := rfl
@[simp] theorem State.setInput_input (es : List PortEvent) : (s.setInput es).input = es := rfl

@[simp] theorem State.takeDout_dec : s.takeDout.dec = s.dec := rfl
@[simp] theorem State.takeDout_enc : s.takeDout.enc = s.enc := rfl
@[simp] theorem State.takeDout_trc : s.takeDout.trc = s.trc := rfl
@[simp] theorem State.takeDout_err : s.takeDout.err = s.err := rfl
@[simp] theorem State.takeDout_dout : s.takeDout.dout = s.dout.tail := rfl
@[simp] theorem State.takeDout_tout : s.takeDout.tout = s.tout := rfl
@[simp] theorem State.takeDout_sout : s.takeDout.sout = s.sout := rfl
@[simp] theorem State.takeDout_input : s.takeDout.input = s.input := rfl

@[simp] theorem State.takeTout_dec : s.takeTout.dec = s.dec := rfl
@[simp] theorem State.takeTout_enc : s.takeTout.enc = s.enc := rfl
@[simp] theorem State.takeTout_trc : s.takeTout.trc = s.trc := rfl
@[simp] theorem State.takeTout_err : s.takeTout.err = s.err := rfl
@[simp] theorem State.takeTout_dout : s.takeTout.dout = s.dout := rfl
@[simp] theorem State.takeTout_tout : s.takeTout.tout = s.tout.tail := rfl
@[simp] theorem State.takeTout_sout : s.takeTout.sout = s.sout := rfl
@[simp] theorem State.takeTout_input : s.takeTout.input = s.input := rfl

@[simp] theorem State.takeSout_dec : s.takeSout.dec = s.dec := rfl
@[simp] theorem State.takeSout_enc : s.takeSout.enc = s.enc := rfl
@[simp] theorem State.takeSout_trc : s.takeSout.trc = s.trc := rfl
@[simp] theorem State.takeSout_err : s.takeSout.err = s.err := rfl
@[simp] theorem State.takeSout_dout : s.takeSout.dout = s.dout := rfl
@[simp] theorem State.takeSout_tout : s.takeSout.tout = s.tout := rfl
@[simp] theorem State.takeSout_sout : s.takeSout.sout = s.sout.tail := rfl
@[simp] theorem State.takeSout_input : s.takeSout.input = s.input := rfl

@[simp] theorem State.applyDec_dec (r : Decoder × List Byte) : (s.applyDec r).dec = r.1 := rfl
@[simp] theorem State.applyDec_enc (r : Decoder × List Byte) : (s.applyDec r).enc = s.enc := rfl
@[simp] theorem State.applyDec_trc (r : Decoder × List Byte) : (s.applyDec r).trc = s.trc := rfl
@[simp] theorem State.applyDec_err (r : Decoder × List Byte) : (s.applyDec r).err = s.err := rfl
@[simp] theorem State.applyDec_dout (r : Decoder × List Byte) : (s.applyDec r).dout = s.dout ++ r.2 := rfl
@[simp] theorem State.applyDec_tout (r : Decoder × List Byte) : (s.applyDec r).tout = s.tout := rfl
@[simp] theorem State.applyDec_sout (r : Decoder × List Byte) : (s.applyDec r).sout = s.sout := rfl
@[simp] theorem State.applyDec_input (r : Decoder × List Byte) : (s.applyDec r).input = s.input := rfl

@[simp] theorem State.applyEnc_dec (r : Encoder × List Sample) : (s.applyEnc r).dec = s.dec := rfl
@[simp] theorem State.applyEnc_enc (r : Encoder × List Sample) : (s.applyEnc r).enc = r.1 := rfl
@[simp] theorem State.applyEnc_trc (r : Encoder × List Sample) : (s.applyEnc r).trc = s.trc := rfl
@[simp] theorem State.applyEnc_err (r : Encoder × List Sample) : (s.applyEnc r).err = s.err := rfl
@[simp] theorem State.applyEnc_dout (r : Encoder × List Sample) : (s.applyEnc r).dout = s.dout := rfl
@[simp] theorem State.applyEnc_tout (r : Encoder × List Sample) : (s.applyEnc r).tout = s.tout := rfl
@[simp] theorem State.applyEnc_sout (r : Encoder × List Sample) : (s.applyEnc r).sout = s.sout ++ r.2 := rfl
@[simp] theorem State.applyEnc_input (r : Encoder × List Sample) : (s.applyEnc r).input = s.input := rfl

@[simp] theorem State.applyTrc_dec (r : Transcoder × List Byte) : (s.applyTrc r).dec = s.dec := rfl
@[simp] theorem State.applyTrc_enc (r : Transcoder × List Byte) : (s.applyTrc r).enc = s.enc := rfl
@[simp] theorem State.applyTrc_trc (r : Transcoder × List Byte) : (s.applyTrc r).trc = r.1 := rfl
@[simp] theorem State.applyTrc_err (r : Transcoder × List Byte) : (s.applyTrc r).err = s.err := rfl
@[simp] theorem State.applyTrc_dout (r : Transcoder × List Byte) : (s.applyTrc r).dout = s.dout := rfl
@[simp] theorem State.applyTrc_tout (r : Transcoder × List Byte) : (s.applyTrc r).tout = s.tout ++ r.2 := rfl
@[simp] theorem State.applyTrc_sout (r : Transcoder × List Byte) : (s.applyTrc r).sout = s.sout := rfl
@[simp] theorem State.applyTrc_input (r : Transcoder × List Byte) : (s.applyTrc r).input = s.input := rfl

@[simp] theorem raiseIllegal_err (c : Cause) (w : Word) : (raiseIllegal c w s).err = s.err.record c w := rfl
@[simp] theorem raiseIllegal_dec (c : Cause) (w : Word) : (raiseIllegal c w s).dec = s.dec := rfl
@[simp] theorem raiseIllegal_enc (c : Cause) (w : Word) : (raiseIllegal c w s).enc = s.enc := rfl
@[simp] theorem raiseIllegal_trc (c : Cause) (w : Word) : (raiseIllegal c w s).trc = s.trc := rfl
@[simp] theorem raiseIllegal_dout (c : Cause) (w : Word) : (raiseIllegal c w s).dout = s.dout := rfl
@[simp] theorem raiseIllegal_tout (c : Cause) (w : Word) : (raiseIllegal c w s).tout = s.tout := rfl
@[simp] theorem raiseIllegal_sout (c : Cause) (w : Word) : (raiseIllegal c w s).sout = s.sout := rfl
@[simp] theorem raiseIllegal_input (c : Cause) (w : Word) : (raiseIllegal c w s).input = s.input := rfl

/-- Two writes of PDEC's results, one after the other, are one. -/
theorem State.applyDec_applyDec (r q : Decoder × List Byte) :
    (s.applyDec r).applyDec q = s.applyDec (q.1, r.2 ++ q.2) := by
  simp [State.applyDec, State.setDec, State.emitDout]

/-- Two writes of PENC's results, one after the other, are one. -/
theorem State.applyEnc_applyEnc (r q : Encoder × List Sample) :
    (s.applyEnc r).applyEnc q = s.applyEnc (q.1, r.2 ++ q.2) := by
  simp [State.applyEnc, State.setEnc, State.emitSout]

/-- Two writes of PTRC's results, one after the other, are one. -/
theorem State.applyTrc_applyTrc (r q : Transcoder × List Byte) :
    (s.applyTrc r).applyTrc q = s.applyTrc (q.1, r.2 ++ q.2) := by
  simp [State.applyTrc, State.setTrc, State.emitTout]

/-- Writing back PDEC's own state and emitting nothing changes nothing. -/
@[simp] theorem State.applyDec_self : s.applyDec (s.dec, []) = s := by
  simp [State.applyDec, State.setDec, State.emitDout]

/-- Writing back PENC's own state and emitting nothing changes nothing. -/
@[simp] theorem State.applyEnc_self : s.applyEnc (s.enc, []) = s := by
  simp [State.applyEnc, State.setEnc, State.emitSout]

/-- Writing back PTRC's own state and emitting nothing changes nothing. -/
@[simp] theorem State.applyTrc_self : s.applyTrc (s.trc, []) = s := by
  simp [State.applyTrc, State.setTrc, State.emitTout]

end Sys2Proof.Machine
end

