-- ==== Sys2Proof/Laws/Exec.lean ====
section
/-! SUPPORT. What one command, a list of commands and one step can do: each said once, for later proofs to cite. -/

namespace Sys2Proof.Machine

/-! ## One command -/

@[simp] theorem exec_nop (s : State) : exec .nop s = .next s := rfl

@[simp] theorem exec_decStart (f : Format) (r : Mode) (s : State) :
    exec (.decStart f r) s = .next (s.applyDec (Decoder.initial f, startHeader params f r)) := rfl

@[simp] theorem exec_decSample (x : Sample) (s : State) :
    exec (.decSample x) s = .next (s.applyDec (s.dec.sample params (polarity x))) := rfl

@[simp] theorem exec_decFlush (s : State) : exec .decFlush s = .next (s.applyDec s.dec.flush) := rfl

@[simp] theorem exec_encStart (r : Mode) (s : State) :
    exec (.encStart r) s = .next (s.applyEnc (Encoder.start r, [])) := rfl

@[simp] theorem exec_encByte (b : Byte) (s : State) :
    exec (.encByte b) s = .next (s.applyEnc (s.enc.byte params b)) := rfl

@[simp] theorem exec_trcStart (f : Format) (r : Mode) (s : State) :
    exec (.trcStart f r) s =
      .next (s.applyTrc (Transcoder.start params f r, startHeader params (otherFormat f) r)) := rfl

@[simp] theorem exec_trcByte (b : Byte) (s : State) :
    exec (.trcByte b) s = .next (s.applyTrc (s.trc.byte b)) := rfl

/-- Everything a command can do: nothing, or one write to the state and the channel of its unit. -/
theorem exec_cases (i : Instr) (s : State) :
    (i.unit = .noUnit ∧ exec i s = .next s) ∨
    (i.unit = .pdec ∧ ∃ r, exec i s = .next (s.applyDec r)) ∨
    (i.unit = .penc ∧ ∃ r, exec i s = .next (s.applyEnc r)) ∨
    (i.unit = .ptrc ∧ ∃ r, exec i s = .next (s.applyTrc r)) := by
  cases i with
  | nop => exact .inl ⟨rfl, rfl⟩
  | decStart f r => exact .inr (.inl ⟨rfl, _, rfl⟩)
  | decSample x => exact .inr (.inl ⟨rfl, _, rfl⟩)
  | decFlush => exact .inr (.inl ⟨rfl, _, rfl⟩)
  | encStart r => exact .inr (.inr (.inl ⟨rfl, _, rfl⟩))
  | encByte b => exact .inr (.inr (.inl ⟨rfl, _, rfl⟩))
  | trcStart f r => exact .inr (.inr (.inr ⟨rfl, _, rfl⟩))
  | trcByte b => exact .inr (.inr (.inr ⟨rfl, _, rfl⟩))

/-- A PDEC command's result as a function of D alone (10_state.md R38). -/
theorem exec_pdec {i : Instr} (h : i.unit = .pdec) :
    ∃ g : Decoder → Decoder × List Byte, ∀ s, exec i s = .next (s.applyDec (g s.dec)) := by
  cases i with
  | decStart f r => exact ⟨fun _ => (Decoder.initial f, startHeader params f r), fun _ => rfl⟩
  | decSample x => exact ⟨fun d => d.sample params (polarity x), fun _ => rfl⟩
  | decFlush => exact ⟨Decoder.flush, fun _ => rfl⟩
  | nop => cases h
  | encStart r => cases h
  | encByte b => cases h
  | trcStart f r => cases h
  | trcByte b => cases h

/-- A PENC command's result as a function of E alone (10_state.md R38). -/
theorem exec_penc {i : Instr} (h : i.unit = .penc) :
    ∃ g : Encoder → Encoder × List Sample, ∀ s, exec i s = .next (s.applyEnc (g s.enc)) := by
  cases i with
  | encStart r => exact ⟨fun _ => (Encoder.start r, []), fun _ => rfl⟩
  | encByte b => exact ⟨fun e => e.byte params b, fun _ => rfl⟩
  | nop => cases h
  | decStart f r => cases h
  | decSample x => cases h
  | decFlush => cases h
  | trcStart f r => cases h
  | trcByte b => cases h

/-- A PTRC command's result as a function of T alone (10_state.md R38). -/
theorem exec_ptrc {i : Instr} (h : i.unit = .ptrc) :
    ∃ g : Transcoder → Transcoder × List Byte, ∀ s, exec i s = .next (s.applyTrc (g s.trc)) := by
  cases i with
  | trcStart f r =>
    exact ⟨fun _ => (Transcoder.start params f r, startHeader params (otherFormat f) r), fun _ => rfl⟩
  | trcByte b => exact ⟨fun q => q.byte b, fun _ => rfl⟩
  | nop => cases h
  | decStart f r => cases h
  | decSample x => cases h
  | decFlush => cases h
  | encStart r => cases h
  | encByte b => cases h

/-! ## Lists of commands -/

@[simp] theorem runCommands_nil (s : State) : runCommands [] s = .next s := rfl

/-- A list whose first command answers `t` runs the rest from `t`. -/
theorem runCommands_cons {i : Instr} {is : List Instr} {s t : State} (h : exec i s = .next t) :
    runCommands (i :: is) s = runCommands is t := by
  simp [runCommands, h]

/-- A list whose first part ends in `t` runs the second part from `t`. -/
theorem runCommands_append {is js : List Instr} {s t : State} (h : runCommands is s = .next t) :
    runCommands (is ++ js) s = runCommands js t := by
  induction is generalizing s with
  | nil => cases h; rfl
  | cons i is ih =>
    simp only [runCommands] at h
    split at h
    · rename_i u hu
      rw [List.cons_append, runCommands_cons hu, ih h]
    · cases h
    · cases h

/-- DEC_SAMPLE once per sample is the unit's function of the sample sequence. -/
theorem runCommands_decSamples (xs : List Sample) (s : State) :
    runCommands (xs.map .decSample) s = .next (s.applyDec (s.dec.samples params xs)) := by
  induction xs generalizing s with
  | nil => simp [Decoder.samples]
  | cons x xs ih =>
    rw [List.map_cons, runCommands_cons (exec_decSample x s), ih, State.applyDec_applyDec]
    rfl

/-- ENC_BYTE once per byte is the unit's function of the byte sequence. -/
theorem runCommands_encBytes (bs : List Byte) (s : State) :
    runCommands (bs.map .encByte) s = .next (s.applyEnc (s.enc.bytes params bs)) := by
  induction bs generalizing s with
  | nil => simp [Encoder.bytes]
  | cons b bs ih =>
    rw [List.map_cons, runCommands_cons (exec_encByte b s), ih, State.applyEnc_applyEnc]
    rfl

/-- TRC_BYTE once per byte is the unit's function of the byte sequence. -/
theorem runCommands_trcBytes (bs : List Byte) (s : State) :
    runCommands (bs.map .trcByte) s = .next (s.applyTrc (s.trc.bytes bs)) := by
  induction bs generalizing s with
  | nil => simp [Transcoder.bytes]
  | cons b bs ih =>
    rw [List.map_cons, runCommands_cons (exec_trcByte b s), ih, State.applyTrc_applyTrc]
    rfl

/-! ## One step -/

/-- Everything a step can do, by what the host does next. -/
theorem step_cases (s : State) :
    (s.input = [] ∧ step s = .next s) ∨
    ∃ e rest, s.input = e :: rest ∧
      ((∃ w i, e = .command w ∧ decode w = .legal i ∧ step s = exec i (s.setInput rest)) ∨
       (∃ w c, e = .command w ∧ decode w = .illegal c ∧ step s = .next (raiseIllegal c w (s.setInput rest))) ∨
       (e = .takeDout ∧ step s = .next (s.setInput rest).takeDout) ∨
       (e = .takeTout ∧ step s = .next (s.setInput rest).takeTout) ∨
       (e = .takeSout ∧ step s = .next (s.setInput rest).takeSout) ∨
       (e = .reset ∧ step s = .next (s.setInput rest).takeReset)) := by
  rcases hin : s.input with _ | ⟨e, rest⟩
  · exact .inl ⟨rfl, by simp [step, hin]⟩
  · refine .inr ⟨e, rest, rfl, ?_⟩
    have hs : step s = takeEvent e (s.setInput rest) := by simp [step, hin]
    cases e with
    | command w =>
      rcases hd : decode w with i | c
      · exact .inl ⟨w, i, rfl, hd, by simp [hs, takeEvent, acceptCommand, hd]⟩
      · exact .inr (.inl ⟨w, c, rfl, hd, by simp [hs, takeEvent, acceptCommand, hd]⟩)
    | takeDout => exact .inr (.inr (.inl ⟨rfl, hs⟩))
    | takeTout => exact .inr (.inr (.inr (.inl ⟨rfl, hs⟩)))
    | takeSout => exact .inr (.inr (.inr (.inr (.inl ⟨rfl, hs⟩))))
    | reset => exact .inr (.inr (.inr (.inr (.inr ⟨rfl, hs⟩))))

/-- A run whose first step answers `t` goes on from `t`. -/
theorem core_run_succ {s t : State} (k : Nat) (h : step s = .next t) :
    Host.Core.run core (k + 1) s = Host.Core.run core k t := by
  have hs : core.step s = .next t := h
  simp only [Host.Core.run, hs]

end Sys2Proof.Machine
end

