-- ==== Sys2Proof/Laws/Pdec.lean ====
section
/-! SUPPORT. What each of PDEC's operations does (40_pulse_decoder.md), one lemma per case, and the operations'
keeping of the invariant (10_state.md R24). -/

namespace Sys2Proof.Machine

/-! ## Accumulating a bit -/

/-- The eighth bit completes the byte (R110). -/
theorem Decoder.accumulate_of_full {d : Decoder} (h : d.bitpos = 7#3) (bit : Bool) :
    d.accumulate bit = ({ d with acc := 0x00#8, bitpos := 0#3 }, [shiftIn d.fmt d.acc bit]) := by
  simp [Decoder.accumulate, h]

/-- Any earlier bit is kept (R110). -/
theorem Decoder.accumulate_of_not_full {d : Decoder} (h : d.bitpos ≠ 7#3) (bit : Bool) :
    d.accumulate bit = ({ d with acc := shiftIn d.fmt d.acc bit, bitpos := d.bitpos + 1#3 }, []) := by
  simp [Decoder.accumulate, h]

/-- Accumulating writes only the accumulator and the bit position. -/
theorem Decoder.accumulate_frame (d : Decoder) (bit : Bool) :
    (d.accumulate bit).1.fmt = d.fmt ∧ (d.accumulate bit).1.primed = d.primed ∧
    (d.accumulate bit).1.prev = d.prev ∧ (d.accumulate bit).1.cnt = d.cnt ∧
    (d.accumulate bit).1.firstPart = d.firstPart := by
  unfold Decoder.accumulate
  split <;> simp

/-! ## One sample -/

/-- The first sample of a session primes (R103). -/
theorem Decoder.sample_of_unprimed {d : Decoder} (c : Config) (p : Bool) (h : d.primed = false) :
    d.sample c p = (d.prime p, []) := by
  simp [Decoder.sample, h]

/-- A sample of the same polarity counts (R105). -/
theorem Decoder.sample_of_same {d : Decoder} (c : Config) {p : Bool} (h : d.primed = true) (hp : p = d.prev) :
    d.sample c p = (d.countSample, []) := by
  simp [Decoder.sample, h, hp]

/-- A sample that ends a second half turns the toggle (R106). -/
theorem Decoder.sample_of_second_half {d : Decoder} (c : Config) {p : Bool} (h : d.primed = true) (hp : p ≠ d.prev)
    (hf : d.firstPart = true) : d.sample c p = (d.toggle p, []) := by
  simp [Decoder.sample, Decoder.transition, h, hp, hf]

/-- A sample that ends a first half scores it (R106, R107). -/
theorem Decoder.sample_of_first_half {d : Decoder} (c : Config) {p : Bool} (h : d.primed = true) (hp : p ≠ d.prev)
    (hf : d.firstPart = false) :
    d.sample c p =
      ((d.accumulate (scoreRun c d.cnt)).1.toggle p, (d.accumulate (scoreRun c d.cnt)).2) := by
  simp [Decoder.sample, Decoder.transition, h, hp, hf]

/-! ## A sequence of samples -/

@[simp] theorem Decoder.samples_nil (c : Config) (d : Decoder) : d.samples c [] = (d, []) := rfl

theorem Decoder.samples_cons (c : Config) (d : Decoder) (x : Sample) (xs : List Sample) :
    d.samples c (x :: xs) =
      (((d.sample c (polarity x)).1.samples c xs).1,
        (d.sample c (polarity x)).2 ++ ((d.sample c (polarity x)).1.samples c xs).2) := rfl

theorem Decoder.samples_append (c : Config) (d : Decoder) (xs ys : List Sample) :
    d.samples c (xs ++ ys) =
      (((d.samples c xs).1.samples c ys).1, (d.samples c xs).2 ++ ((d.samples c xs).1.samples c ys).2) := by
  induction xs generalizing d with
  | nil => simp
  | cons x xs ih => simp [Decoder.samples_cons, ih]

/-! ## The saturating counter -/

/-- The saturating increment in numbers (R105). -/
theorem satInc8_toNat (v : BitVec 8) : (satInc8 v).toNat = min 255 (v.toNat + 1) := by
  revert v; decide

/-! ## Flushing -/

@[simp] theorem Decoder.flush_state (d : Decoder) : d.flush.1 = Decoder.initial d.fmt := rfl

/-- With no bit pending nothing is emitted (R113). -/
theorem Decoder.flush_of_empty {d : Decoder} (h : d.bitpos = 0#3) : d.flush.2 = [] := by
  simp [Decoder.flush, h]

/-- With 1 to 7 bits pending the padded byte is emitted (R111, R113). -/
theorem Decoder.flush_of_partial {d : Decoder} (h : d.bitpos ≠ 0#3) : d.flush.2 = [d.paddedByte] := by
  simp [Decoder.flush, h]

@[simp] theorem Decoder.initial_fmt (f : Format) : (Decoder.initial f).fmt = f := rfl
@[simp] theorem Decoder.initial_primed (f : Format) : (Decoder.initial f).primed = false := rfl
@[simp] theorem Decoder.initial_prev (f : Format) : (Decoder.initial f).prev = false := rfl
@[simp] theorem Decoder.initial_cnt (f : Format) : (Decoder.initial f).cnt = 0#8 := rfl
@[simp] theorem Decoder.initial_firstPart (f : Format) : (Decoder.initial f).firstPart = false := rfl
@[simp] theorem Decoder.initial_acc (f : Format) : (Decoder.initial f).acc = 0#8 := rfl
@[simp] theorem Decoder.initial_bitpos (f : Format) : (Decoder.initial f).bitpos = 0#3 := rfl

/-! ## The invariant of R24 -/

/-- A New-order shift keeps the positions that hold no bit yet at zero (R24, R108). -/
theorem shiftIn_new_clear : ∀ (acc : Byte) (n : BitVec 3) (bit : Bool), n ≠ 7#3 →
    (∀ i < 8, n.toNat ≤ i → acc.getLsbD i = false) →
    ∀ i < 8, (n + 1#3).toNat ≤ i → (shiftIn .new acc bit).getLsbD i = false := by decide

/-- An Old-order shift keeps the positions that hold no bit yet at zero (R24, R109). -/
theorem shiftIn_old_clear : ∀ (acc : Byte) (n : BitVec 3) (bit : Bool), n ≠ 7#3 →
    (∀ i < 8, i ≤ 7 - n.toNat → acc.getLsbD i = false) →
    ∀ i < 8, i ≤ 7 - (n + 1#3).toNat → (shiftIn .old acc bit).getLsbD i = false := by decide

/-- Accumulating a bit keeps the invariant. -/
theorem Decoder.accumulate_inv {d : Decoder} (h : d.Inv) (bit : Bool) : (d.accumulate bit).1.Inv := by
  obtain ⟨hn, ho, hp⟩ := h
  by_cases hb : d.bitpos = 7#3
  · rw [Decoder.accumulate_of_full hb]
    exact ⟨by simp, by simp, hp⟩
  · rw [Decoder.accumulate_of_not_full hb]
    refine ⟨fun (hf : d.fmt = .new) => ?_, fun (hf : d.fmt = .old) => ?_, hp⟩
    · exact hf ▸ shiftIn_new_clear _ _ bit hb (hn hf)
    · exact hf ▸ shiftIn_old_clear _ _ bit hb (ho hf)

/-- PDEC's initial state has the invariant in either format. -/
theorem Decoder.initial_inv (f : Format) : (Decoder.initial f).Inv := by cases f <;> decide

end Sys2Proof.Machine
end

