-- ==== Sys2Proof/Laws/PerInstr.lean ====
section
/-! SUPPORT. The statement made for every instruction as syntax: its word is built from well-formed fields. -/

namespace Sys2Proof.Laws

/-- The fields of every instruction's word meet every check of WellFormed.lean (30_encoding.md R83 to R86). -/
def EncodedFieldsWellFormed.Statement (i : Instr) : Prop := (fieldsOf (encode i)).wellFormed = true

theorem EncodedFieldsWellFormed.nop : EncodedFieldsWellFormed.Statement .nop := by
  simp [EncodedFieldsWellFormed.Statement, encode, fieldsOfInstr]; decide

theorem EncodedFieldsWellFormed.decStart (f : Format) (r : Mode) :
    EncodedFieldsWellFormed.Statement (.decStart f r) := by
  simp only [EncodedFieldsWellFormed.Statement, encode, fieldsOf_wordOf, fieldsOfInstr]
  cases f <;> cases r <;> decide

theorem EncodedFieldsWellFormed.decSample (x : Sample) : EncodedFieldsWellFormed.Statement (.decSample x) := by
  simp [EncodedFieldsWellFormed.Statement, encode, fieldsOfInstr, Fields.wellFormed, Fields.opOk, Fields.rsvOk,
    Fields.modOk, Fields.isStart, Fields.dataOk, Fields.fmtOk]

theorem EncodedFieldsWellFormed.decFlush : EncodedFieldsWellFormed.Statement .decFlush := by
  simp [EncodedFieldsWellFormed.Statement, encode, fieldsOfInstr]; decide

theorem EncodedFieldsWellFormed.encStart (r : Mode) : EncodedFieldsWellFormed.Statement (.encStart r) := by
  simp only [EncodedFieldsWellFormed.Statement, encode, fieldsOf_wordOf, fieldsOfInstr]
  cases r <;> decide

theorem EncodedFieldsWellFormed.encByte (b : Byte) : EncodedFieldsWellFormed.Statement (.encByte b) := by
  simp [EncodedFieldsWellFormed.Statement, encode, fieldsOfInstr, Fields.wellFormed, Fields.opOk, Fields.rsvOk,
    Fields.modOk, Fields.isStart, Fields.isByte, Fields.dataOk, Fields.fmtOk]

theorem EncodedFieldsWellFormed.trcStart (f : Format) (r : Mode) :
    EncodedFieldsWellFormed.Statement (.trcStart f r) := by
  simp only [EncodedFieldsWellFormed.Statement, encode, fieldsOf_wordOf, fieldsOfInstr]
  cases f <;> cases r <;> decide

theorem EncodedFieldsWellFormed.trcByte (b : Byte) : EncodedFieldsWellFormed.Statement (.trcByte b) := by
  simp [EncodedFieldsWellFormed.Statement, encode, fieldsOfInstr, Fields.wellFormed, Fields.opOk, Fields.rsvOk,
    Fields.modOk, Fields.isStart, Fields.isByte, Fields.dataOk, Fields.fmtOk]

end Sys2Proof.Laws
end

