-- ==== Sys2Proof/Laws/Units.lean ====
section
/-! SUPPORT. What each operation of PENC and PTRC does (41_pulse_encoder.md, 42_bit_order_transcoder.md), and the
FRAMING table's rows (20_memory.md R57). -/

namespace Sys2Proof.Machine

/-! ## PENC -/

@[simp] theorem Encoder.start_image : Encoder.start .image = { skip := 1#1 } := rfl
@[simp] theorem Encoder.start_raw : Encoder.start .raw = { skip := 0#1 } := rfl

/-- With nothing to skip a byte is encoded (R142). -/
theorem Encoder.byte_of_no_skip {e : Encoder} (c : Config) (h : e.skip = 0#1) (b : Byte) :
    e.byte c b = (e, byteWave c b) := by
  simp [Encoder.byte, h]

/-- A byte to skip is dropped (R142, R148). -/
theorem Encoder.byte_of_skip {e : Encoder} (c : Config) (h : e.skip ≠ 0#1) (b : Byte) :
    e.byte c b = ({ skip := e.skip - 1#1 }, []) := by
  simp [Encoder.byte, h]

@[simp] theorem Encoder.bytes_nil (c : Config) (e : Encoder) : e.bytes c [] = (e, []) := rfl

theorem Encoder.bytes_cons (c : Config) (e : Encoder) (b : Byte) (bs : List Byte) :
    e.bytes c (b :: bs) =
      (((e.byte c b).1.bytes c bs).1, (e.byte c b).2 ++ ((e.byte c b).1.bytes c bs).2) := rfl

/-- With nothing to skip a sequence is encoded byte by byte without gaps (R145). -/
theorem Encoder.bytes_of_no_skip {e : Encoder} (c : Config) (h : e.skip = 0#1) (bs : List Byte) :
    e.bytes c bs = (e, bs.flatMap (byteWave c)) := by
  induction bs with
  | nil => rfl
  | cons b bs ih => rw [Encoder.bytes_cons, Encoder.byte_of_no_skip c h, ih, List.flatMap_cons]

/-- A cycle has two halves of the same width (R143). -/
@[simp] theorem bitCycle_length (c : Config) (bit : Bool) : (bitCycle c bit).length = 2 * halfWidth c bit := by
  simp [bitCycle]; omega

/-! ## PTRC -/

/-- With nothing to skip a byte is emitted bit-reversed (R174). -/
theorem Transcoder.byte_of_no_skip {t : Transcoder} (h : t.skip = 0#9) (b : Byte) : t.byte b = (t, [brev b]) := by
  simp [Transcoder.byte, h]

/-- A byte to skip is dropped (R174). -/
theorem Transcoder.byte_of_skip {t : Transcoder} (h : t.skip ≠ 0#9) (b : Byte) :
    t.byte b = ({ skip := t.skip - 1#9 }, []) := by
  simp [Transcoder.byte, h]

@[simp] theorem Transcoder.bytes_nil (t : Transcoder) : t.bytes [] = (t, []) := rfl

theorem Transcoder.bytes_cons (t : Transcoder) (b : Byte) (bs : List Byte) :
    t.bytes (b :: bs) = (((t.byte b).1.bytes bs).1, (t.byte b).2 ++ ((t.byte b).1.bytes bs).2) := rfl

/-- The skip count never goes below zero, and each dropped byte counts it down by one (R26). -/
theorem Transcoder.byte_skip_toNat (t : Transcoder) (b : Byte) :
    (t.byte b).1.skip.toNat = t.skip.toNat - 1 := by
  by_cases h : t.skip = 0#9
  · simp [Transcoder.byte_of_no_skip h, h]
  · rw [Transcoder.byte_of_skip h]
    have : t.skip.toNat ≠ 0 := fun e => h (BitVec.eq_of_toNat_eq (by simpa using e))
    have := t.skip.isLt
    simp only [BitVec.toNat_sub, BitVec.toNat_ofNat]
    omega

/-- A sequence of bytes: as many are dropped as are to skip, the others are emitted bit-reversed (R175 to R179). -/
theorem Transcoder.bytes_eq (t : Transcoder) (bs : List Byte) :
    t.bytes bs =
      ({ skip := BitVec.ofNat 9 (t.skip.toNat - bs.length) }, (bs.drop t.skip.toNat).map brev) := by
  induction bs generalizing t with
  | nil => simp
  | cons b bs ih =>
    rw [Transcoder.bytes_cons, ih, Transcoder.byte_skip_toNat]
    by_cases h : t.skip = 0#9
    · simp [Transcoder.byte_of_no_skip h, h]
    · rw [Transcoder.byte_of_skip h]
      have hne : t.skip.toNat ≠ 0 := fun e => h (BitVec.eq_of_toNat_eq (by simpa using e))
      obtain ⟨k, hk⟩ := Nat.exists_eq_succ_of_ne_zero hne
      simp [hk]

/-! ## The parameters and FRAMING -/

@[simp] theorem params_thresh : params.thresh = 11 := rfl
@[simp] theorem params_zeroW : params.zeroW = 9 := rfl
@[simp] theorem params_oneW : params.oneW = 17 := rfl
@[simp] theorem params_ampLow : params.ampLow = 0xA000#16 := rfl
@[simp] theorem params_ampHigh : params.ampHigh = 0x6000#16 := rfl
@[simp] theorem params_syncNew : params.syncNew = 0x4F#8 := rfl
@[simp] theorem params_hdrLenNew : params.hdrLenNew = 1 := rfl
@[simp] theorem params_hdrLenOld : params.hdrLenOld = 360 := rfl
@[simp] theorem params_oldHdr : params.oldHdr = Reference.oldHeader := rfl
@[simp] theorem oldHeader_length : Reference.oldHeader.length = 360 := by
  rw [Reference.oldHeader, List.length_append, List.length_replicate]; rfl
@[simp] theorem header_new (c : Config) : header c .new = [c.syncNew] := rfl
@[simp] theorem header_old (c : Config) : header c .old = c.oldHdr := rfl
@[simp] theorem hdrlen_new (c : Config) : hdrlen c .new = c.hdrLenNew := rfl
@[simp] theorem hdrlen_old (c : Config) : hdrlen c .old = c.hdrLenOld := rfl

@[simp] theorem startHeader_raw (c : Config) (f : Format) : startHeader c f .raw = [] := rfl
@[simp] theorem startHeader_image (c : Config) (f : Format) : startHeader c f .image = header c f := rfl
@[simp] theorem otherFormat_new : otherFormat .new = .old := rfl
@[simp] theorem otherFormat_old : otherFormat .old = .new := rfl

end Sys2Proof.Machine
end

