-- ==== Sys2Proof/Tests/Slice0.lean ====
section
/-! SUPPORT. The model's own tests: a smoke test of each check of WellFormed.lean, words written out from the encodings of
30_encoding.md R88, one or two steps per command with the expected result from 95_test_vectors.md or a rule's example, and
a witness for the hypotheses of every obligation that has any. -/

namespace Sys2Proof.Tests

open Sys2Proof.Machine Sys2Proof.Reference

/-! ## Each check refuses an ill-formed term -/

theorem test_opOk_refuses : Fields.opOk ⟨8#4, 0#4, 0#8, 0#16⟩ = false := by decide
theorem test_rsvOk_refuses : Fields.rsvOk ⟨0#4, 0#4, 1#8, 0#16⟩ = false := by decide
theorem test_modOk_refuses_zero_form : Fields.modOk ⟨2#4, 1#4, 0#8, 0#16⟩ = false := by decide
theorem test_modOk_refuses_start_form : Fields.modOk ⟨1#4, 4#4, 0#8, 0#16⟩ = false := by decide
theorem test_dataOk_refuses_no_operand : Fields.dataOk ⟨3#4, 0#4, 0#8, 1#16⟩ = false := by decide
theorem test_dataOk_refuses_wide_byte : Fields.dataOk ⟨5#4, 0#4, 0#8, 0x100#16⟩ = false := by decide
theorem test_fmtOk_refuses : Fields.fmtOk ⟨4#4, 1#4, 0#8, 0#16⟩ = false := by decide
theorem test_wellFormed_refuses : Fields.wellFormed ⟨4#4, 1#4, 0#8, 0#16⟩ = false := by decide
theorem test_wellFormed_accepts : Fields.wellFormed ⟨6#4, 3#4, 0#8, 0#16⟩ = true := by decide
theorem test_sampleOk_refuses_dec : (Imm.dec 32768).sampleOk = false := by decide
theorem test_sampleOk_refuses_hex : (Imm.hex 0x10000).sampleOk = false := by decide
theorem test_byteOk_refuses_dec : (Imm.dec (-1)).byteOk = false := by decide
theorem test_byteOk_refuses_hex : (Imm.hex 0x100).byteOk = false := by decide
theorem test_decRun_refuses_none : (AsmLine.decRun .plus 0).wellFormed = false := by decide
theorem test_decRun_minus_refuses_none : (AsmLine.decRun .minus 0).wellFormed = false := by decide
theorem test_encBytes_refuses_one : (AsmLine.encBytes (.dec 0) [.dec 256]).wellFormed = false := by decide

/-! ## Words written out bit by bit from R88: OP, MOD, RSV, DATA -/

theorem test_decode_nop : decode 0b0000_0000_00000000_0000000000000000#32 = .legal .nop := by decide
theorem test_decode_decStart :
    decode 0b0001_0001_00000000_0000000000000000#32 = .legal (.decStart .old .image) := by decide
theorem test_decode_decStart_raw :
    decode 0b0001_0010_00000000_0000000000000000#32 = .legal (.decStart .new .raw) := by decide
theorem test_decode_decSample :
    decode 0b0010_0000_00000000_1000000000000001#32 = .legal (.decSample 0x8001#16) := by decide
theorem test_decode_decFlush : decode 0b0011_0000_00000000_0000000000000000#32 = .legal .decFlush := by decide
theorem test_decode_encStart :
    decode 0b0100_0010_00000000_0000000000000000#32 = .legal (.encStart .raw) := by decide
theorem test_decode_encByte :
    decode 0b0101_0000_00000000_0000000010000001#32 = .legal (.encByte 0x81#8) := by decide
theorem test_decode_trcStart :
    decode 0b0110_0001_00000000_0000000000000000#32 = .legal (.trcStart .old .image) := by decide
theorem test_decode_trcByte :
    decode 0b0111_0000_00000000_0000000000001111#32 = .legal (.trcByte 0x0F#8) := by decide
/-- V83: `OP` is checked before every other field. -/
theorem test_decode_illOp : decode 0x8FFFFFFF#32 = .illegal .illOp := by decide
/-- V94: a must-be-zero bit of `MOD` is checked before the format. -/
theorem test_decode_illField : decode 0x45000000#32 = .illegal .illField := by decide
/-- V92: an Old-format encode. -/
theorem test_decode_illFmt : decode 0x41000000#32 = .illegal .illFmt := by decide
theorem test_decodeTableWord : decodeTableWord 32 0x500000A5 = some (.encByte 0xA5#8) := by decide
theorem test_encode_trcStart : encode (.trcStart .old .raw) = 0x63000000#32 := by decide
/-- R92, R93: `DEC_SAMPLE -1` and `DEC_RUN 0n`. -/
theorem test_assemble_sample : assemble (.decSample (.dec (-1))) = some [0x2000FFFF#32] := by decide
theorem test_assemble_run : assemble (.decRun .zero 2) = some [0x20000000#32, 0x20000000#32] := by decide
/-- R92: the alias of `TRC_START.N2O.RAW`. -/
theorem test_assemble_trcStartRaw : assemble .trcStartRaw = some [0x62000000#32] := by decide

/-- R92: the suffixes stand in a fixed order. -/
theorem test_mnemonicText :
    (AsmLine.trcStart .old .raw).mnemonicText = "TRC_START.O2N.RAW" ∧ (AsmLine.encStart .image).mnemonicText = "ENC_START" := by
  decide

/-! ## One step of each command -/

/-- The state after reset with a decoder `d`. -/
abbrev withDec (d : Decoder) : State := State.reset.setDec d

/-- The state after reset with the port events `es` coming. -/
abbrev withInput (es : List PortEvent) : State := State.reset.setInput es

/-- What a result holds under `p`, and nothing for a stop. -/
abbrev look {α : Type} (p : State → α) : Result → Option α
  | .next t => some (p t)
  | .fault _ => none
  | .refused _ => none

/-- R200: NOP does not clear the error state. -/
theorem test_nop :
    look State.err (exec .nop (State.reset.setErr ⟨true, .illOp, 0x80000000#32⟩)) =
      some ⟨true, .illOp, 0x80000000#32⟩ := by decide

/-- R101, example: from reset, DEC_START.NEW gives DOUT = [0x4F] and DECSTAT = 0. -/
theorem test_decStart_new :
    look (fun t => (t.dout, t.statusPort 1#3)) (step (State.reset.withFetchWord 32 0x10000000)) =
      some ([0x4F#8], 0x00000000#32) := by decide
/-- R101: raw mode emits nothing, and FMT is DECSTAT bit 0. -/
theorem test_decStart_old_raw :
    look (fun t => (t.dout, t.statusPort 1#3)) (step (State.reset.withFetchWord 32 0x13000000)) =
      some ([], 0x00000001#32) := by decide

/-- R102, example: a first half with CNT 9 scores 0. -/
theorem test_decSample_scores_zero :
    look (fun t => (t.dec, t.dout))
      (exec (.decSample 0xFFFF#16) (withDec ⟨.new, true, true, 9#8, false, 0x00#8, 0#3⟩)) =
      some (⟨.new, true, false, 0#8, true, 0x00#8, 1#3⟩, []) := by decide
/-- R110: the eighth bit completes the byte; Old order puts a 1 in bit 7 (R109). -/
theorem test_decSample_completes_old :
    look (fun t => (t.dec, t.dout))
      (exec (.decSample 0x0001#16) (withDec ⟨.old, true, false, 11#8, false, 0x02#8, 7#3⟩)) =
      some (⟨.old, true, true, 0#8, true, 0x00#8, 0#3⟩, [0x81#8]) := by decide

/-- R111, example: bits 0 then 1 in New order flush to 0x40. -/
theorem test_decFlush_new :
    look (fun t => (t.dout, t.dec))
      (exec .decFlush (withDec ⟨.new, true, false, 16#8, true, 0x01#8, 2#3⟩)) =
      some ([0x40#8], ⟨.new, false, false, 0#8, false, 0x00#8, 0#3⟩) := by decide
/-- R111, example: the same bits in Old order flush to 0x02, and FMT stays. -/
theorem test_decFlush_old :
    look (fun t => (t.dout, t.dec))
      (exec .decFlush (withDec ⟨.old, true, false, 16#8, true, 0x80#8, 2#3⟩)) =
      some ([0x02#8], ⟨.old, false, false, 0#8, false, 0x00#8, 0#3⟩) := by decide

/-- R141, example: ENC_START from reset gives ENCSTAT = 1. -/
theorem test_encStart :
    look (fun t => t.statusPort 2#3) (step (State.reset.withFetchWord 32 0x40000000)) = some 0x00000001#32 := by decide

/-- V47: the sync byte is dropped and ENCSTAT goes to 0. -/
theorem test_encByte_drops :
    look (fun t => (t.sout, t.enc)) (exec (.encByte 0x4F#8) (State.reset.setEnc ⟨1#1⟩)) =
      some ([], ⟨0#1⟩) := by decide
/-- V44: 0x80 is one wide cycle, then narrow ones. -/
theorem test_encByte_wave :
    look (fun t => t.sout.take 52) (exec (.encByte 0x80#8) State.reset) =
      some (List.replicate 17 0xA000#16 ++ List.replicate 17 0x6000#16 ++
        List.replicate 9 0xA000#16 ++ List.replicate 9 0x6000#16) := by decide

/-- R173, example: from reset, TRC_START.O2N gives TOUT = [0x4F] and TRCSTAT = 0x168. -/
theorem test_trcStart_o2n :
    look (fun t => (t.tout, t.statusPort 3#3)) (step (State.reset.withFetchWord 32 0x61000000)) =
      some ([0x4F#8], 0x00000168#32) := by decide
/-- V60: TRC_START.N2O begins the 360-byte header and leaves one byte to skip. -/
theorem test_trcStart_n2o :
    look (fun t => (t.tout.take 4, t.trc)) (exec (.trcStart .new .image) State.reset) =
      some ([0x68#8, 0x01#8, 0x00#8, 0x00#8], ⟨1#9⟩) := by decide

/-- V67: from reset, TRC_BYTE 0x0F gives TOUT = [0xF0]. -/
theorem test_trcByte :
    look State.tout (step (State.reset.withFetchWord 32 0x7000000F)) = some [0xF0#8] := by decide
/-- R174: a header byte is dropped. -/
theorem test_trcByte_drops :
    look (fun t => (t.tout, t.trc)) (exec (.trcByte 0x4F#8) (State.reset.setTrc ⟨360#9⟩)) =
      some ([], ⟨359#9⟩) := by decide

/-- V92: STATUS and ILLCMD after an illegal command. -/
theorem test_illegal :
    look (fun t => (t.statusPort 0#3, t.statusPort 4#3)) (step (State.reset.withFetchWord 32 0x41000000)) =
      some (0x00000007#32, 0x41000000#32) := by decide
/-- R240: reset keeps only what the host does next. -/
theorem test_reset :
    look id (step ((withInput [.reset, .takeDout]).emitDout [0x01#8])) = some (withInput [.takeDout]) := by decide

/-! ## Witnesses: concrete inputs that meet the hypotheses of each obligation -/

/-- A decoder in the middle of a session. -/
abbrev midDec : Decoder := ⟨.old, true, true, 11#8, false, 0x80#8, 1#3⟩

/-- A state with every channel filled and an error recorded. -/
abbrev busy : State where
  dec := midDec
  enc := ⟨1#1⟩
  trc := ⟨360#9⟩
  err := ⟨true, .illFmt, 0x41000000#32⟩
  dout := [0x4F#8, 0x01#8]
  tout := [0x68#8]
  sout := [0xA000#16]
  input := []

theorem witness_EncodeDecodeAgree : decode 0x61000000#32 = .legal (.trcStart .old .image) := by decide

theorem witness_LegalWordsAreTheTableRows :
    0x00000000#32 &&& 0xFFFFFFFF#32 = 0x00000000#32 ∧ 0x13000000#32 &&& 0xFCFFFFFF#32 = 0x10000000#32 ∧
    0x2000FFFF#32 &&& 0xFFFF0000#32 = 0x20000000#32 ∧ 0x30000000#32 &&& 0xFFFFFFFF#32 = 0x30000000#32 ∧
    0x42000000#32 &&& 0xFDFFFFFF#32 = 0x40000000#32 ∧ 0x500000FF#32 &&& 0xFFFFFF00#32 = 0x50000000#32 ∧
    0x63000000#32 &&& 0xFCFFFFFF#32 = 0x60000000#32 ∧ 0x700000FF#32 &&& 0xFFFFFF00#32 = 0x70000000#32 ∧
    ∀ row ∈ opcodeRows, row.covers 0x41000000#32 = false := by decide

theorem witness_IllegalCause_clauses :
    decode 0x80000000#32 = .illegal .illOp ∧ decode 0x7F000000#32 = .illegal .illField ∧
    decode 0x70010000#32 = .illegal .illField ∧ decode 0x43000000#32 = .illegal .illFmt := by decide

theorem witness_StepRunsTheDecodedCommand :
    (withInput [.command 0x30000000#32, .reset]).input = [.command 0x30000000#32, .reset] ∧
    decode 0x30000000#32 = .legal .decFlush := by decide

theorem witness_IllegalCommandOnlyRecordsTheFirst :
    (withInput [.command 0x80000000#32]).input = [.command 0x80000000#32] ∧ decode 0x80000000#32 = .illegal .illOp ∧
    (withInput [.command 0x80000000#32]).err.ill = false ∧
    (busy.setInput [.command 0x80000000#32]).input = [.command 0x80000000#32] ∧
    (busy.setInput [.command 0x80000000#32]).err.ill = true := by decide

theorem witness_IdleStepChangesNothing : busy.input = [] := by decide

theorem witness_DrainTakesTheFrontElement :
    (busy.setInput [.takeDout]).input = [.takeDout] ∧ (busy.setInput [.takeDout]).dout = 0x4F#8 :: [0x01#8] ∧
    (busy.setInput [.takeTout]).input = [.takeTout] ∧ (busy.setInput [.takeTout]).tout = 0x68#8 :: [] ∧
    (busy.setInput [.takeSout]).input = [.takeSout] ∧ (busy.setInput [.takeSout]).sout = 0xA000#16 :: [] ∧
    (withInput [.takeDout]).dout = [] ∧ (withInput [.takeTout]).tout = [] ∧ (withInput [.takeSout]).sout = [] := by decide

theorem witness_ResetEventResetsEverything : (busy.setInput [.reset]).input = [.reset] := by decide

theorem witness_StepKeepsTheInvariant :
    (busy.setInput [.takeDout]).dec.Inv ∧ (busy.setInput [.takeDout]).err.Inv ∧ (busy.setInput [.takeDout]).trc.Inv ∧
    step (busy.setInput [.takeDout]) = .next { busy with dout := [0x01#8] } :=
  ⟨by decide, by decide, by decide, rfl⟩

theorem witness_StatusPortShowsTheFullState :
    ∀ idx : BitVec 3, busy.statusPort idx = (busy.emitDout [0x55#8]).statusPort idx := by decide

theorem witness_NopRule : (0x00000001#32).extractLsb' 28 4 = 0#4 ∧ 0x00000001#32 ≠ 0#32 := by decide

theorem witness_DecSampleRule_primes : (withDec Decoder.reset).dec.primed = false := by decide
theorem witness_DecSampleRule_counts :
    midDec.primed = true ∧ polarity 0x7FFF#16 = midDec.prev := by decide
theorem witness_DecSampleRule_second_half :
    ({ midDec with firstPart := true }).primed = true ∧ polarity 0x0000#16 ≠ midDec.prev ∧
    ({ midDec with firstPart := true }).firstPart = true := by decide
theorem witness_DecSampleRule_first_half :
    midDec.primed = true ∧ polarity 0x8000#16 ≠ midDec.prev ∧ midDec.firstPart = false ∧
    0xC0#8 = (midDec.acc >>> 1) ||| (if 11 ≤ midDec.cnt.toNat then 0x80#8 else 0x00#8) ∧
    midDec.bitpos ≠ 7#3 ∧ ({ midDec with bitpos := 7#3 }).bitpos = 7#3 := by decide

/-- A run of `n + 1` positive samples. -/
theorem polarity_of_ones (n : Nat) : ∀ y ∈ 0x0001#16 :: List.replicate n 0x0001#16, polarity y = true := by
  intro y hy
  rw [List.eq_of_mem_replicate (n := n + 1) hy]
  decide

theorem witness_RunCounterRule :
    (∀ y ∈ 0x0001#16 :: List.replicate 255 0x0001#16, polarity y = true) ∧ Decoder.reset.primed = false ∧
    ({ midDec with prev := false }).primed = true ∧ ({ midDec with prev := false }).prev = !true :=
  ⟨polarity_of_ones 255, by decide, by decide, by decide⟩

theorem witness_RunLengthTable :
    (∀ y ∈ 0x0001#16 :: List.replicate 10 0x0001#16, polarity y = true) ∧
    (∀ y ∈ 0x0001#16 :: List.replicate 11 0x0001#16, polarity y = true) ∧ polarity 0xFFFF#16 = (!true) ∧
    Decoder.reset.primed = false ∧ Decoder.reset.firstPart = false ∧
    ({ midDec with prev := false, firstPart := true }).primed = true ∧
    ({ midDec with prev := false, firstPart := true }).prev = (!true) ∧
    ({ midDec with prev := false, firstPart := true }).firstPart = true :=
  ⟨polarity_of_ones 10, polarity_of_ones 11, by decide, by decide, by decide, by decide, by decide, by decide⟩

theorem witness_EightBitsMakeAByte :
    ({ midDec with acc := 0#8, bitpos := 0#3 }).acc = 0#8 ∧ ({ midDec with acc := 0#8, bitpos := 0#3 }).bitpos = 0#3 := by
  decide

/-- A run of one zero sample, the least count R93 names for any form. -/
theorem witness_AssemblerRefusesOutOfRange : 1 ≤ 1 := by decide

theorem witness_EncByteRule : busy.enc.skip ≠ 0#1 ∧ State.reset.enc.skip = 0#1 := by decide
theorem witness_EncByteSampleCount : State.reset.enc.skip = 0#1 ∧ busy.enc.skip ≠ 0#1 := by decide

/-- The narrowest configuration the constraints of R8 allow. -/
abbrev narrow : Config :=
  { params with zeroW := 1, thresh := 2, oneW := 3, ampLow := 0#16, ampHigh := 1#16 }

theorem witness_RoundTripForEveryValidConfig : narrow.Valid where
  zeroW_pos := by decide
  zeroW_lt := by decide
  thresh_le := by decide
  thresh_le_max := by decide
  ampLow_nonpos := by decide
  ampHigh_pos := by decide
  hdrLenOld_eq := rfl
  hdrLenNew_eq := rfl
  oldHdr_length := oldHeader_length

theorem witness_BrevReversesBits : 7 < 8 := by decide

theorem witness_BrevIsThreeSwapStages :
    0xF2#8 = (0x2F#8 >>> 4) ||| (0x2F#8 <<< 4) ∧
    0xF8#8 = ((0xF2#8 &&& 0xCC#8) >>> 2) ||| ((0xF2#8 &&& 0x33#8) <<< 2) := by decide

theorem witness_TrcByteRule : busy.trc.skip ≠ 0#9 ∧ State.reset.trc.skip = 0#9 := by decide

theorem witness_TranscodeRoundTrip :
    360 ≤ (List.replicate 360 0x00#8).length ∧ 1 ≤ [0x4F#8].length :=
  ⟨by simp only [List.length_replicate]; decide, by decide⟩

theorem witness_UnitsAreIndependent :
    Instr.decFlush.unit = .pdec ∧ busy.dec = (withDec midDec).dec ∧
    (Instr.encByte 0x00#8).unit = .penc ∧ busy.enc = (State.reset.setEnc ⟨1#1⟩).enc ∧
    (Instr.trcByte 0x00#8).unit = .ptrc ∧ busy.trc = (State.reset.setTrc ⟨360#9⟩).trc := by decide

theorem witness_DecoderFieldFrame :
    State.reset.dec.primed = false ∧ busy.dec.primed = true ∧ polarity 0x0001#16 = busy.dec.prev := by decide

theorem witness_CommandsOnlyAppend :
    runCommands [.nop, .trcByte 0x00#8] busy = .next { busy with trc := ⟨359#9⟩ } := rfl

theorem witness_OnlyResetClears :
    step (busy.setInput [.command 0x80000000#32]) = .next busy ∧
    (busy.setInput [.command 0x80000000#32]).input.head? ≠ some .reset ∧ busy.err.ill = true ∧
    (busy.setInput [.command 0x80000000#32]).input.head? ≠ some .takeDout ∧
    (busy.setInput [.command 0x80000000#32]).input.head? ≠ some .takeTout ∧
    (busy.setInput [.command 0x80000000#32]).input.head? ≠ some .takeSout :=
  ⟨rfl, by decide, by decide, by decide, by decide, by decide⟩

end Sys2Proof.Tests
end

section
/-! SUPPORT. Runs of samples and bits in order at PDEC (40_pulse_decoder.md R103 to R110): what one run of equal polarity
does, and what a list of scored bits does to the accumulator, apart from the flags of R34. -/

namespace Sys2Proof.Machine

/-! ## A run of samples -/

@[simp] theorem Decoder.prime_fmt (d : Decoder) (p : Bool) : (d.prime p).fmt = d.fmt := rfl
@[simp] theorem Decoder.prime_primed (d : Decoder) (p : Bool) : (d.prime p).primed = true := rfl
@[simp] theorem Decoder.prime_prev (d : Decoder) (p : Bool) : (d.prime p).prev = p := rfl
@[simp] theorem Decoder.prime_cnt (d : Decoder) (p : Bool) : (d.prime p).cnt = 1#8 := rfl
@[simp] theorem Decoder.prime_firstPart (d : Decoder) (p : Bool) : (d.prime p).firstPart = d.firstPart := rfl
@[simp] theorem Decoder.toggle_fmt (d : Decoder) (p : Bool) : (d.toggle p).fmt = d.fmt := rfl
@[simp] theorem Decoder.toggle_primed (d : Decoder) (p : Bool) : (d.toggle p).primed = d.primed := rfl
@[simp] theorem Decoder.toggle_prev (d : Decoder) (p : Bool) : (d.toggle p).prev = p := rfl
@[simp] theorem Decoder.toggle_cnt (d : Decoder) (p : Bool) : (d.toggle p).cnt = 0#8 := rfl
@[simp] theorem Decoder.toggle_firstPart (d : Decoder) (p : Bool) : (d.toggle p).firstPart = !d.firstPart := rfl

/-- After a sample the decoder is primed with that sample's polarity, whichever of R103, R105 and R106 applied. -/
theorem Decoder.sample_polarity (c : Config) (d : Decoder) (p : Bool) :
    (d.sample c p).1.primed = true ∧ (d.sample c p).1.prev = p := by
  cases h : d.primed with
  | false => simp [Decoder.sample_of_unprimed c p h]
  | true =>
    by_cases hp : p = d.prev
    · rw [Decoder.sample_of_same c h hp]
      exact ⟨h, hp.symm⟩
    · cases hf : d.firstPart with
      | true => simp [Decoder.sample_of_second_half c h hp hf, h]
      | false =>
        obtain ⟨-, hprimed, -⟩ := d.accumulate_frame (scoreRun c d.cnt)
        simp [Decoder.sample_of_first_half c h hp hf, hprimed, h]

/-- The saturating counter after `n` samples more (R105). -/
def countUp (v : BitVec 8) (n : Nat) : BitVec 8 := BitVec.ofNat 8 (min 255 (v.toNat + n))

@[simp] theorem countUp_zero (v : BitVec 8) : countUp v 0 = v := by
  have := v.isLt
  exact BitVec.eq_of_toNat_eq (by simp [countUp]; omega)

@[simp] theorem countUp_toNat (v : BitVec 8) (n : Nat) : (countUp v n).toNat = min 255 (v.toNat + n) := by
  simp [countUp]

theorem countUp_satInc8 (v : BitVec 8) (n : Nat) : countUp (satInc8 v) n = countUp v (n + 1) := by
  apply BitVec.eq_of_toNat_eq
  rw [countUp_toNat, countUp_toNat, satInc8_toNat]
  omega

/-- Samples of the polarity before them only count (R105). -/
theorem Decoder.samples_of_same (c : Config) {d : Decoder} (h : d.primed = true) {xs : List Sample}
    (hx : ∀ x ∈ xs, polarity x = d.prev) :
    d.samples c xs = ({ d with cnt := countUp d.cnt xs.length }, []) := by
  induction xs generalizing d with
  | nil => simp
  | cons x xs ih =>
    obtain ⟨hp, hxs⟩ := List.forall_mem_cons.mp hx
    have hrest := ih (d := d.countSample) h hxs
    rw [Decoder.samples_cons, Decoder.sample_of_same c h hp, hrest]
    simp [Decoder.countSample, countUp_satInc8]

/-- A run does what its first sample does, and its other samples count (R105, R106). -/
theorem Decoder.samples_run (c : Config) (d : Decoder) (x : Sample) {xs : List Sample}
    (hx : ∀ y ∈ xs, polarity y = polarity x) :
    d.samples c (x :: xs) =
      ({ (d.sample c (polarity x)).1 with cnt := countUp (d.sample c (polarity x)).1.cnt xs.length },
        (d.sample c (polarity x)).2) := by
  obtain ⟨hprimed, hprev⟩ := d.sample_polarity c (polarity x)
  have hrest : ∀ y ∈ xs, polarity y = (d.sample c (polarity x)).1.prev := fun y hy => (hx y hy).trans hprev.symm
  rw [Decoder.samples_cons, Decoder.samples_of_same c hprimed hrest, List.append_nil]

/-- The run of one sample repeated, as the encoder's half-periods are. -/
theorem Decoder.samples_replicate (c : Config) (d : Decoder) (x : Sample) {n : Nat} (hn : 1 ≤ n) :
    d.samples c (List.replicate n x) =
      ({ (d.sample c (polarity x)).1 with cnt := countUp (d.sample c (polarity x)).1.cnt (n - 1) },
        (d.sample c (polarity x)).2) := by
  obtain ⟨m, rfl⟩ := Nat.exists_eq_add_of_le' hn
  have hx : ∀ y ∈ List.replicate m x, polarity y = polarity x := fun y hy => by rw [List.eq_of_mem_replicate hy]
  rw [List.replicate_succ, Decoder.samples_run c d x hx, List.length_replicate, Nat.add_sub_cancel]

/-! ## A list of bits -/

/-- `accumulate` for each bit in order: the state after them and the bytes they emit (R110). -/
def Decoder.accumulateBits : Decoder → List Bool → Decoder × List Byte
  | d, [] => (d, [])
  | d, b :: bs =>
    (((d.accumulate b).1.accumulateBits bs).1, (d.accumulate b).2 ++ ((d.accumulate b).1.accumulateBits bs).2)

@[simp] theorem Decoder.accumulateBits_nil (d : Decoder) : d.accumulateBits [] = (d, []) := rfl

theorem Decoder.accumulateBits_cons (d : Decoder) (b : Bool) (bs : List Bool) :
    d.accumulateBits (b :: bs) =
      (((d.accumulate b).1.accumulateBits bs).1,
        (d.accumulate b).2 ++ ((d.accumulate b).1.accumulateBits bs).2) := rfl

theorem Decoder.accumulateBits_append (d : Decoder) (bs cs : List Bool) :
    d.accumulateBits (bs ++ cs) =
      (((d.accumulateBits bs).1.accumulateBits cs).1,
        (d.accumulateBits bs).2 ++ ((d.accumulateBits bs).1.accumulateBits cs).2) := by
  induction bs generalizing d with
  | nil => simp
  | cons b bs ih => simp [Decoder.accumulateBits_cons, ih]

/-- The bits missing from a byte complete it: it is emitted once, and the accumulator restarts empty (R110). -/
theorem Decoder.accumulateBits_completes (d : Decoder) (bs : List Bool) (h : d.bitpos.toNat + bs.length = 8) :
    d.accumulateBits bs =
      ({ d with acc := 0x00#8, bitpos := 0#3 }, [bs.foldl (shiftIn d.fmt) d.acc]) := by
  have hlt := d.bitpos.isLt
  induction bs generalizing d with
  | nil => simp at h; omega
  | cons b bs ih =>
    rw [List.length_cons] at h
    rw [Decoder.accumulateBits_cons]
    by_cases hfull : d.bitpos = 7#3
    · have hnil : bs = [] := List.length_eq_zero_iff.mp (by simp [hfull] at h; omega)
      rw [Decoder.accumulate_of_full hfull, hnil]
      rfl
    · have hne : d.bitpos.toNat ≠ 7 := fun e => hfull (BitVec.eq_of_toNat_eq e)
      have hsucc : (d.bitpos + 1#3).toNat = d.bitpos.toNat + 1 := by
        simp only [BitVec.toNat_add, BitVec.toNat_ofNat]; omega
      rw [Decoder.accumulate_of_not_full hfull, ih _ (by simp only [hsucc]; omega) (BitVec.isLt _)]
      rfl

/-- The byte an `f` session assembles from the bits the encoder sends for `b`: `b` itself in New format, its
bit-reversal in Old format (R117; 41_pulse_encoder.md R150). -/
def receivedByte : Format → Byte → Byte
  | .new, b => b
  | .old, b => brev b

/-- The encoder's bit order, shifted in by an `f` session (R108, R109; 41_pulse_encoder.md R144). -/
theorem foldl_shiftIn_bitsMsbFirst (f : Format) (b : Byte) :
    (bitsMsbFirst b).foldl (shiftIn f) 0x00#8 = receivedByte f b := by
  cases f with
  | new => revert b; decide
  | old => revert b; decide

/-- The bits of whole bytes give those bytes and leave no bit pending (R110, R113). -/
theorem Decoder.accumulateBits_bytes (f : Format) (bs : List Byte) :
    (Decoder.initial f).accumulateBits (bs.flatMap bitsMsbFirst) = (Decoder.initial f, bs.map (receivedByte f)) := by
  induction bs with
  | nil => rfl
  | cons b bs ih =>
    have hb : (Decoder.initial f).accumulateBits (bitsMsbFirst b) = (Decoder.initial f, [receivedByte f b]) := by
      rw [← foldl_shiftIn_bitsMsbFirst]
      exact Decoder.accumulateBits_completes (Decoder.initial f) (bitsMsbFirst b) rfl
    rw [List.flatMap_cons, Decoder.accumulateBits_append, hb, ih]
    rfl

/-! ## The accumulator apart from the flags -/

/-- The decoder with its flags and its run counter cleared (10_state.md R34): what is left is the byte in progress. -/
def Decoder.clearFlags (d : Decoder) : Decoder := { Decoder.initial d.fmt with acc := d.acc, bitpos := d.bitpos }

@[simp] theorem Decoder.clearFlags_initial (f : Format) : (Decoder.initial f).clearFlags = Decoder.initial f := rfl

/-- Accumulating a bit neither reads nor writes the flags (R110). -/
theorem Decoder.clearFlags_accumulate (d : Decoder) (bit : Bool) :
    d.clearFlags.accumulate bit = ((d.accumulate bit).1.clearFlags, (d.accumulate bit).2) := by
  by_cases h : d.bitpos = 7#3
  · rw [Decoder.accumulate_of_full h, Decoder.accumulate_of_full (d := d.clearFlags) h]
    rfl
  · rw [Decoder.accumulate_of_not_full h, Decoder.accumulate_of_not_full (d := d.clearFlags) h]
    rfl

end Sys2Proof.Machine
end

section
/-! SUPPORT. The encoder's waveform at the decoder, for every configuration that meets R8's constraints
(41_pulse_encoder.md R143 to R146, R150). A cycle's low run is the decoder's first half and its high run the second; the
first sample of the high run scores the bit, so between two cycles nothing of the waveform is left to score. -/

namespace Sys2Proof

open Machine

variable {c : Config}

theorem Config.Valid.polarity_ampLow (hv : c.Valid) : polarity c.ampLow = false :=
  decide_eq_false (Int.not_lt.mpr hv.ampLow_nonpos)

theorem Config.Valid.polarity_ampHigh (hv : c.Valid) : polarity c.ampHigh = true :=
  decide_eq_true hv.ampHigh_pos

theorem Config.Valid.halfWidth_pos (hv : c.Valid) (bit : Bool) : 1 ≤ halfWidth c bit := by
  obtain ⟨hz, hzt, hto, -⟩ := hv
  cases bit with
  | false => exact hz
  | true => show 1 ≤ c.oneW; omega

/-- The threshold separates the two widths, whether the counter holds the run's whole length (the first run of a session)
or one less (any later run), and though it saturates (R107, R118). -/
theorem Config.Valid.scoreRun_halfWidth (hv : c.Valid) {bit : Bool} {n : BitVec 8}
    (hlo : min 255 (halfWidth c bit - 1) ≤ n.toNat) (hhi : n.toNat ≤ halfWidth c bit) : scoreRun c n = bit := by
  have hzt := hv.zeroW_lt
  have hto := hv.thresh_le
  have ht255 : c.thresh ≤ 255 := hv.thresh_le_max
  cases bit with
  | false =>
    have hw : halfWidth c false = c.zeroW := rfl
    exact decide_eq_false (by omega)
  | true =>
    have hw : halfWidth c true = c.oneW := rfl
    exact decide_eq_true (by omega)

end Sys2Proof

namespace Sys2Proof.Machine

variable {c : Config}

/-- The decoder between two cycles: still unprimed before a first half, or at the end of a high second half. -/
def Decoder.BetweenCycles (d : Decoder) : Prop :=
  d.firstPart = d.primed ∧ (d.primed = true → d.prev = true)

theorem Decoder.initial_betweenCycles (f : Format) : (Decoder.initial f).BetweenCycles := by
  simp [Decoder.BetweenCycles]

/-- The first low sample of a cycle primes the decoder or ends the second half before it; either way it starts a low first
half and emits nothing (R103, R106). -/
theorem Decoder.BetweenCycles.sample_low {d : Decoder} (h : d.BetweenCycles) (c : Config) :
    d.sample c false = (d.prime false, []) ∧ d.firstPart = false ∨
    d.sample c false = (d.toggle false, []) ∧ d.primed = true ∧ d.firstPart = true := by
  obtain ⟨hfp, hprev⟩ := h
  cases hp : d.primed with
  | false => exact .inl ⟨Decoder.sample_of_unprimed c false hp, hfp.trans hp⟩
  | true =>
    have hne : false ≠ d.prev := by simp [hprev hp]
    exact .inr ⟨Decoder.sample_of_second_half c hp hne (hfp.trans hp), rfl, hfp.trans hp⟩

/-- A cycle's low run leaves the decoder in a low first half whose count is the run's width or one less. -/
theorem Decoder.BetweenCycles.samples_low {d : Decoder} (h : d.BetweenCycles) (hv : c.Valid) {w : Nat} (hw : 1 ≤ w) :
    ∃ e, d.samples c (List.replicate w c.ampLow) = (e, []) ∧ e.clearFlags = d.clearFlags ∧
      e.primed = true ∧ e.prev = false ∧ e.firstPart = false ∧
      min 255 (w - 1) ≤ e.cnt.toNat ∧ e.cnt.toNat ≤ w := by
  rw [Decoder.samples_replicate c d _ hw, hv.polarity_ampLow]
  rcases h.sample_low c with ⟨hs, hfp⟩ | ⟨hs, hprimed, hfp⟩
  · rw [hs]
    exact ⟨_, rfl, rfl, rfl, rfl, hfp, by simp, by simp; omega⟩
  · rw [hs]
    exact ⟨_, rfl, rfl, hprimed, rfl, by simp [hfp], by simp, by simp⟩

/-- A cycle's high run scores the low first half before it and leaves the decoder between two cycles (R106, R107). -/
theorem Decoder.samples_high {e : Decoder} (hprimed : e.primed = true) (hprev : e.prev = false)
    (hfp : e.firstPart = false) (hv : c.Valid) {w : Nat} (hw : 1 ≤ w) :
    ∃ d, e.samples c (List.replicate w c.ampHigh) = (d, (e.accumulate (scoreRun c e.cnt)).2) ∧
      d.clearFlags = (e.accumulate (scoreRun c e.cnt)).1.clearFlags ∧ d.BetweenCycles := by
  have hne : true ≠ e.prev := by simp [hprev]
  obtain ⟨-, hprimed', -, -, hfp'⟩ := e.accumulate_frame (scoreRun c e.cnt)
  rw [Decoder.samples_replicate c e _ hw, hv.polarity_ampHigh, Decoder.sample_of_first_half c hprimed hne hfp]
  exact ⟨_, rfl, rfl, by simp [hprimed', hfp', hprimed, hfp], fun _ => rfl⟩

/-- A cycle of the waveform does to the byte in progress what accumulating its bit does (R143, R107, R110). -/
theorem Decoder.BetweenCycles.samples_bitCycle {d : Decoder} (h : d.BetweenCycles) (hv : c.Valid) (bit : Bool) :
    ∃ d', d.samples c (bitCycle c bit) = (d', (d.clearFlags.accumulate bit).2) ∧
      d'.clearFlags = (d.clearFlags.accumulate bit).1 ∧ d'.BetweenCycles := by
  have hw := hv.halfWidth_pos bit
  obtain ⟨e, hlow, hclear, hprimed, hprev, hfp, hlo, hhi⟩ := h.samples_low hv hw
  obtain ⟨d', hhigh, hd', hbetween⟩ := Decoder.samples_high hprimed hprev hfp hv hw
  rw [hv.scoreRun_halfWidth hlo hhi] at hhigh hd'
  refine ⟨d', ?_, ?_, hbetween⟩
  · rw [bitCycle, Decoder.samples_append, hlow, hhigh, ← hclear, Decoder.clearFlags_accumulate]
    rfl
  · rw [hd', ← hclear, Decoder.clearFlags_accumulate]

/-- The waveform of a list of bits does to the byte in progress what accumulating those bits does. -/
theorem Decoder.BetweenCycles.samples_bitCycles {d : Decoder} (h : d.BetweenCycles) (hv : c.Valid) (bits : List Bool) :
    ((d.samples c (bits.flatMap (bitCycle c))).1.clearFlags, (d.samples c (bits.flatMap (bitCycle c))).2) =
      d.clearFlags.accumulateBits bits := by
  induction bits generalizing d with
  | nil => rfl
  | cons bit bits ih =>
    obtain ⟨d', hcycle, hclear, hbetween⟩ := h.samples_bitCycle hv bit
    have hrest := ih hbetween
    rw [List.flatMap_cons, Decoder.samples_append, hcycle, Decoder.accumulateBits_cons, ← hclear, ← hrest]

/-- The waveform of a payload is the waveform of its bits (R142, R145). -/
theorem flatMap_byteWave (c : Config) (payload : List Byte) :
    payload.flatMap (byteWave c) = (payload.flatMap bitsMsbFirst).flatMap (bitCycle c) :=
  List.flatMap_assoc.symm

/-- A payload's waveform decodes to the payload as an `f` session assembles it, and the flush adds nothing (R150). -/
theorem Decoder.decode_payload_wave (hv : c.Valid) (f : Format) (payload : List Byte) :
    ((Decoder.initial f).samples c (payload.flatMap (byteWave c))).2 = payload.map (receivedByte f) ∧
    ((Decoder.initial f).samples c (payload.flatMap (byteWave c))).1.flush.2 = [] := by
  have hwave := (Decoder.initial_betweenCycles f).samples_bitCycles hv (payload.flatMap bitsMsbFirst)
  rw [← flatMap_byteWave, Decoder.clearFlags_initial, Decoder.accumulateBits_bytes] at hwave
  obtain ⟨hstate, hbytes⟩ := Prod.mk.inj hwave
  exact ⟨hbytes, Decoder.flush_of_empty (congrArg Decoder.bitpos hstate)⟩

end Sys2Proof.Machine
end

section
/-! PROOFS. The statements about the configuration of 00_scope.md R8. -/

namespace Sys2Proof.Machine

/-- Settles O38: between two cycles of the waveform no run is left to score, so the bits arrive one cycle at a time. -/
theorem roundTripForEveryValidConfig : Obligations.RoundTripForEveryValidConfig := by
  intro c hv payload
  obtain ⟨hnew, hnewFlush⟩ := Decoder.decode_payload_wave hv .new payload
  obtain ⟨hold, holdFlush⟩ := Decoder.decode_payload_wave hv .old payload
  rw [hnew, hnewFlush, hold, holdFlush, List.append_nil, List.append_nil]
  exact ⟨List.map_id payload, rfl⟩

/-- Settles O40, one constraint at a time. -/
theorem parametersMeetTheConstraints : Obligations.ParametersMeetTheConstraints where
  zeroW_pos := by decide
  zeroW_lt := by decide
  thresh_le := by decide
  thresh_le_max := by decide
  ampLow_nonpos := by decide
  ampHigh_pos := by decide
  hdrLenOld_eq := rfl
  hdrLenNew_eq := rfl
  oldHdr_length := oldHeader_length

end Sys2Proof.Machine
end

section
/-! SUPPORT. The status port (10_state.md R29 to R35): the register at each index, and the place of every field in it. -/

namespace Sys2Proof.Machine

variable (s : State)

@[simp] theorem State.statusPort_zero : s.statusPort 0#3 = statusReg s.err := rfl
@[simp] theorem State.statusPort_one : s.statusPort 1#3 = decstatReg s.dec := rfl
@[simp] theorem State.statusPort_two : s.statusPort 2#3 = encstatReg s.enc := rfl
@[simp] theorem State.statusPort_three : s.statusPort 3#3 = trcstatReg s.trc := rfl
@[simp] theorem State.statusPort_four : s.statusPort 4#3 = s.err.illcmd := rfl
@[simp] theorem State.statusPort_five : s.statusPort 5#3 = 0#32 := rfl
@[simp] theorem State.statusPort_six : s.statusPort 6#3 = 0#32 := rfl
@[simp] theorem State.statusPort_seven : s.statusPort 7#3 = 0#32 := rfl

/-- The width of STATUS from its fields, made visible to rewriting. -/
theorem statusReg_eq_cast (e : ErrorState) :
    statusReg e = BitVec.cast (by decide : 29 + 2 + 1 = 32) (0#29 ++ e.cause.code ++ BitVec.ofBool e.ill) := rfl

/-- The width of DECSTAT from its fields, made visible to rewriting. -/
theorem decstatReg_eq_cast (d : Decoder) :
    decstatReg d = BitVec.cast (by decide : 8 + 8 + 8 + 1 + 3 + 1 + 1 + 1 + 1 = 32)
      (0#8 ++ d.cnt ++ d.acc ++ 0#1 ++ d.bitpos ++ BitVec.ofBool d.firstPart ++ BitVec.ofBool d.prev ++
        BitVec.ofBool d.primed ++ BitVec.ofBool d.fmt.toBit) := rfl

/-- The fields of STATUS at their bits (R30). -/
theorem statusReg_layout (e : ErrorState) :
    (statusReg e).getLsbD 0 = e.ill ∧ (statusReg e).extractLsb' 1 2 = e.cause.code ∧
    (statusReg e).extractLsb' 3 29 = 0#29 := by
  simp only [statusReg_eq_cast, BitVec.getLsbD_cast, BitVec.extractLsb'_cast, BitVec.getLsbD_append,
    BitVec.extractLsb'_append_eq_ite]
  simp

/-- The fields of DECSTAT at their bits (R31). -/
theorem decstatReg_layout (d : Decoder) :
    (decstatReg d).getLsbD 0 = d.fmt.toBit ∧ (decstatReg d).getLsbD 1 = d.primed ∧
    (decstatReg d).getLsbD 2 = d.prev ∧ (decstatReg d).getLsbD 3 = d.firstPart ∧
    (decstatReg d).extractLsb' 4 3 = d.bitpos ∧ (decstatReg d).getLsbD 7 = false ∧
    (decstatReg d).extractLsb' 8 8 = d.acc ∧ (decstatReg d).extractLsb' 16 8 = d.cnt ∧
    (decstatReg d).extractLsb' 24 8 = 0#8 := by
  simp only [decstatReg_eq_cast, BitVec.getLsbD_cast, BitVec.extractLsb'_cast, BitVec.getLsbD_append,
    BitVec.extractLsb'_append_eq_ite]
  simp

/-- The field of ENCSTAT at its bit (R32). -/
theorem encstatReg_layout (e : Encoder) :
    (encstatReg e).extractLsb' 0 1 = e.skip ∧ (encstatReg e).extractLsb' 1 31 = 0#31 :=
  ⟨BitVec.extractLsb'_append_eq_right, BitVec.extractLsb'_append_eq_left⟩

/-- The field of TRCSTAT at its bits (R33). -/
theorem trcstatReg_layout (t : Transcoder) :
    (trcstatReg t).extractLsb' 0 9 = t.skip ∧ (trcstatReg t).extractLsb' 9 23 = 0#23 :=
  ⟨BitVec.extractLsb'_append_eq_right, BitVec.extractLsb'_append_eq_left⟩

/-- Every status register reads zero after reset (R37). -/
theorem State.reset_statusPort : ∀ idx : BitVec 3, State.reset.statusPort idx = 0x00000000#32 := by decide

end Sys2Proof.Machine
end

section
/-! SUPPORT. What a sample does to the byte in progress and to the flags (40_pulse_decoder.md R102; 10_state.md R34),
and the parts of the block's invariant at each operation (R24, R26, R28). -/

namespace Sys2Proof.Machine

/-! ## PDEC -/

/-- Everything a sample can do apart from the flags: nothing, or the accumulation of the bit it scores (R102). -/
theorem Decoder.clearFlags_sample (c : Config) (d : Decoder) (p : Bool) :
    (d.sample c p).1.clearFlags = d.clearFlags ∧ (d.sample c p).2 = [] ∨
    (d.sample c p).1.clearFlags = (d.clearFlags.accumulate (scoreRun c d.cnt)).1 ∧
      (d.sample c p).2 = (d.clearFlags.accumulate (scoreRun c d.cnt)).2 := by
  cases h : d.primed with
  | false => rw [Decoder.sample_of_unprimed c p h]; exact .inl ⟨rfl, rfl⟩
  | true =>
    by_cases hp : p = d.prev
    · rw [Decoder.sample_of_same c h hp]; exact .inl ⟨rfl, rfl⟩
    · cases hf : d.firstPart with
      | true => rw [Decoder.sample_of_second_half c h hp hf]; exact .inl ⟨rfl, rfl⟩
      | false =>
        rw [Decoder.sample_of_first_half c h hp hf, Decoder.clearFlags_accumulate]
        exact .inr ⟨rfl, rfl⟩

@[simp] theorem Decoder.clearFlags_fmt (d : Decoder) : d.clearFlags.fmt = d.fmt := rfl

/-- A sample keeps the format of the session (R60). -/
theorem Decoder.sample_fmt (c : Config) (d : Decoder) (p : Bool) : (d.sample c p).1.fmt = d.fmt := by
  obtain ⟨hfmt, -⟩ := d.clearFlags.accumulate_frame (scoreRun c d.cnt)
  rw [← Decoder.clearFlags_fmt (d.sample c p).1]
  rcases d.clearFlags_sample c p with ⟨h, -⟩ | ⟨h, -⟩
  · rw [h, Decoder.clearFlags_fmt]
  · rw [h, hfmt, Decoder.clearFlags_fmt]

/-- A sample that closes no run writes only the polarity, the primed flag and the counter, and emits nothing
(R103, R105). -/
theorem Decoder.sample_of_no_transition (c : Config) {d : Decoder} {p : Bool} (h : d.primed = false ∨ p = d.prev) :
    (d.sample c p).1.firstPart = d.firstPart ∧ (d.sample c p).1.acc = d.acc ∧
    (d.sample c p).1.bitpos = d.bitpos ∧ (d.sample c p).2 = [] := by
  cases hprimed : d.primed with
  | false => rw [Decoder.sample_of_unprimed c p hprimed]; exact ⟨rfl, rfl, rfl, rfl⟩
  | true =>
    have hp : p = d.prev := h.resolve_left (by simp [hprimed])
    rw [Decoder.sample_of_same c hprimed hp]; exact ⟨rfl, rfl, rfl, rfl⟩

/-- Clearing the flags keeps the invariant. -/
theorem Decoder.Inv.clearFlags {d : Decoder} (h : d.Inv) : d.clearFlags.Inv := by
  obtain ⟨hnew, hold, -⟩ := h
  exact ⟨hnew, hold, fun _ => ⟨rfl, rfl⟩⟩

/-- The invariant of a primed decoder speaks of the byte in progress alone. -/
theorem Decoder.inv_of_clearFlags {d : Decoder} (hprimed : d.primed = true) (h : d.clearFlags.Inv) : d.Inv := by
  obtain ⟨hnew, hold, -⟩ := h
  exact ⟨hnew, hold, fun hunprimed => by simp [hprimed] at hunprimed⟩

/-- A sample keeps the invariant of R24: it leaves the decoder primed, and the byte in progress as it was or with one
bit accumulated. -/
theorem Decoder.sample_inv {d : Decoder} (h : d.Inv) (c : Config) (p : Bool) : (d.sample c p).1.Inv := by
  obtain ⟨hprimed, -⟩ := d.sample_polarity c p
  refine Decoder.inv_of_clearFlags hprimed ?_
  rcases d.clearFlags_sample c p with ⟨hbyte, -⟩ | ⟨hbyte, -⟩
  · rw [hbyte]
    exact h.clearFlags
  · rw [hbyte]
    exact Decoder.accumulate_inv h.clearFlags _

/-! ## PTRC -/

/-- A session of PTRC starts with at most the longest header to skip (R26). -/
theorem Transcoder.start_inv (f : Format) (r : Mode) : (Transcoder.start params f r).Inv := by
  cases f <;> cases r <;> decide

/-- A byte keeps the invariant of R26: the skip count only falls. -/
theorem Transcoder.byte_inv {t : Transcoder} (h : t.Inv) (b : Byte) : (t.byte b).1.Inv := by
  have hskip := t.byte_skip_toNat b
  show (t.byte b).1.skip.toNat ≤ _
  omega

/-! ## S -/

/-- An illegal word after the first changes nothing (60_exceptions.md R215). -/
theorem ErrorState.record_of_ill {e : ErrorState} (h : e.ill = true) (c : Cause) (w : Word) : e.record c w = e := by
  simp [ErrorState.record, h]

/-- The first illegal word is recorded with its cause (60_exceptions.md R211, R215). -/
theorem ErrorState.record_of_not_ill {e : ErrorState} (h : e.ill = false) (c : Cause) (w : Word) :
    e.record c w = { ill := true, cause := c, illcmd := w } := by
  simp [ErrorState.record, h]

/-- The error action keeps the invariant of R28: the word it records is illegal with the cause it records. -/
theorem ErrorState.record_inv {e : ErrorState} (h : e.Inv) {c : Cause} {w : Word} (hw : decode w = .illegal c) :
    (e.record c w).Inv := by
  cases hill : e.ill with
  | true => rwa [ErrorState.record_of_ill hill]
  | false =>
    rw [ErrorState.record_of_not_ill hill]
    exact ⟨nofun, fun _ => ⟨fun hc => decodeFields_ne_none (fieldsOf w) (hc ▸ hw), hw⟩⟩

/-! ## The block -/

/-- The invariant at reset. -/
theorem State.reset_inv : State.reset.Inv where
  dec := Decoder.initial_inv .new
  err := by decide
  trc := by decide

section
variable {s : State} (h : s.Inv)
include h

theorem State.Inv.applyDec {r : Decoder × List Byte} (hr : r.1.Inv) : (s.applyDec r).Inv := ⟨hr, h.err, h.trc⟩
theorem State.Inv.applyEnc (r : Encoder × List Sample) : (s.applyEnc r).Inv := ⟨h.dec, h.err, h.trc⟩
theorem State.Inv.applyTrc {r : Transcoder × List Byte} (hr : r.1.Inv) : (s.applyTrc r).Inv := ⟨h.dec, h.err, hr⟩
theorem State.Inv.setInput (es : List PortEvent) : (s.setInput es).Inv := ⟨h.dec, h.err, h.trc⟩
theorem State.Inv.takeDout : s.takeDout.Inv := ⟨h.dec, h.err, h.trc⟩
theorem State.Inv.takeTout : s.takeTout.Inv := ⟨h.dec, h.err, h.trc⟩
theorem State.Inv.takeSout : s.takeSout.Inv := ⟨h.dec, h.err, h.trc⟩

theorem State.Inv.raiseIllegal {c : Cause} {w : Word} (hw : decode w = .illegal c) : (raiseIllegal c w s).Inv :=
  ⟨h.dec, ErrorState.record_inv h.err hw, h.trc⟩

/-- Every command completes and keeps the invariant. -/
theorem exec_keeps_inv (i : Instr) : ∃ t, exec i s = .next t ∧ t.Inv := by
  cases i with
  | nop => exact ⟨s, rfl, h⟩
  | decStart f r => exact ⟨_, rfl, h.applyDec (Decoder.initial_inv f)⟩
  | decSample x => exact ⟨_, rfl, h.applyDec (Decoder.sample_inv h.dec params (polarity x))⟩
  | decFlush => exact ⟨_, rfl, h.applyDec (Decoder.initial_inv s.dec.fmt)⟩
  | encStart r => exact ⟨_, rfl, h.applyEnc _⟩
  | encByte b => exact ⟨_, rfl, h.applyEnc _⟩
  | trcStart f r => exact ⟨_, rfl, h.applyTrc (Transcoder.start_inv f r)⟩
  | trcByte b => exact ⟨_, rfl, h.applyTrc (Transcoder.byte_inv h.trc b)⟩

/-- Every step answers a next state and keeps the invariant. -/
theorem step_keeps_inv : ∃ t, step s = .next t ∧ t.Inv := by
  rcases step_cases s with ⟨-, hs⟩ | ⟨e, rest, -, hcases⟩
  · exact ⟨s, hs, h⟩
  · have hrest := h.setInput rest
    rcases hcases with ⟨w, i, -, -, hs⟩ | ⟨w, c, -, hw, hs⟩ | ⟨-, hs⟩ | ⟨-, hs⟩ | ⟨-, hs⟩ | ⟨-, hs⟩
    · rw [hs]
      exact exec_keeps_inv hrest i
    · exact ⟨_, hs, hrest.raiseIllegal hw⟩
    · exact ⟨_, hs, hrest.takeDout⟩
    · exact ⟨_, hs, hrest.takeTout⟩
    · exact ⟨_, hs, hrest.takeSout⟩
    · exact ⟨_, hs, State.reset_inv.setInput rest⟩

end

end Sys2Proof.Machine
end

section
/-! SUPPORT. What commands and drains do to the channels (10_state.md R27; 20_memory.md R63, R65). -/

namespace Sys2Proof.Machine

/-- Each channel of `t` begins with what it holds in `s`. -/
structure State.ExtendedBy (s t : State) : Prop where
  dout : s.dout <+: t.dout
  tout : s.tout <+: t.tout
  sout : s.sout <+: t.sout

theorem State.ExtendedBy.refl (s : State) : s.ExtendedBy s :=
  ⟨List.prefix_rfl, List.prefix_rfl, List.prefix_rfl⟩

theorem State.ExtendedBy.trans {s t u : State} (h : s.ExtendedBy t) (g : t.ExtendedBy u) : s.ExtendedBy u :=
  ⟨h.dout.trans g.dout, h.tout.trans g.tout, h.sout.trans g.sout⟩

/-- Every command completes and only appends: whichever unit it goes to, it writes one channel by emission. -/
theorem exec_extends (i : Instr) (s : State) : ∃ t, exec i s = .next t ∧ s.ExtendedBy t := by
  rcases exec_cases i s with ⟨-, hs⟩ | ⟨-, r, hs⟩ | ⟨-, r, hs⟩ | ⟨-, r, hs⟩
  · exact ⟨_, hs, .refl s⟩
  · exact ⟨_, hs, { State.ExtendedBy.refl s with dout := List.prefix_append s.dout r.2 }⟩
  · exact ⟨_, hs, { State.ExtendedBy.refl s with sout := List.prefix_append s.sout r.2 }⟩
  · exact ⟨_, hs, { State.ExtendedBy.refl s with tout := List.prefix_append s.tout r.2 }⟩

/-- Every list of commands completes and only appends. -/
theorem runCommands_extends (is : List Instr) (s : State) : ∃ t, runCommands is s = .next t ∧ s.ExtendedBy t := by
  induction is generalizing s with
  | nil => exact ⟨s, rfl, .refl s⟩
  | cons i is ih =>
    obtain ⟨t, ht, hst⟩ := exec_extends i s
    obtain ⟨u, hu, htu⟩ := ih t
    exact ⟨u, (runCommands_cons ht).trans hu, hst.trans htu⟩

/-- A step with an event waiting takes that event. -/
theorem step_of_input {s : State} {e : PortEvent} {rest : List PortEvent} (h : s.input = e :: rest) :
    step s = takeEvent e (s.setInput rest) := by
  simp [step, h]

theorem step_takeDout {s : State} {rest : List PortEvent} (h : s.input = .takeDout :: rest) :
    step s = .next { s with input := rest, dout := s.dout.tail } := step_of_input h

theorem step_takeTout {s : State} {rest : List PortEvent} (h : s.input = .takeTout :: rest) :
    step s = .next { s with input := rest, tout := s.tout.tail } := step_of_input h

theorem step_takeSout {s : State} {rest : List PortEvent} (h : s.input = .takeSout :: rest) :
    step s = .next { s with input := rest, sout := s.sout.tail } := step_of_input h

end Sys2Proof.Machine
end

section
/-! PROOFS. The statements about the state: its invariant, the status port, the frames of the units and the channels
(10_state.md). -/

namespace Sys2Proof.Machine

/-- Settles O19: each kind of step keeps the invariant of each part. -/
theorem stepKeepsTheInvariant : Obligations.StepKeepsTheInvariant := by
  intro s t h hs
  obtain ⟨u, hu, hinv⟩ := step_keeps_inv h
  cases hu.symm.trans hs
  exact hinv

/-- Settles O20, one register at a time. -/
theorem statusRegisterLayout : Obligations.StatusRegisterLayout :=
  ⟨⟨rfl, rfl, rfl, rfl⟩, ⟨rfl, rfl⟩,
    fun s => ⟨statusReg_layout s.err, decstatReg_layout s.dec, encstatReg_layout s.enc, trcstatReg_layout s.trc, rfl⟩,
    State.reset_statusPort⟩

/-- Settles O49: each unit's command is a function of that unit's state alone, written to its state and channel. -/
theorem unitsAreIndependent : Obligations.UnitsAreIndependent := by
  refine ⟨fun i s s' hi hs => ?_, fun i s s' hi hs => ?_, fun i s s' hi hs => ?_⟩
  · obtain ⟨g, hg⟩ := exec_pdec hi
    exact ⟨_, _, (g s.dec).2, hg s, hg s', by simp [hs], by simp, by simp [hs], rfl, rfl, rfl, rfl, rfl, rfl⟩
  · obtain ⟨g, hg⟩ := exec_penc hi
    exact ⟨_, _, (g s.enc).2, hg s, hg s', by simp [hs], by simp, by simp [hs], rfl, rfl, rfl, rfl, rfl, rfl⟩
  · obtain ⟨g, hg⟩ := exec_ptrc hi
    exact ⟨_, _, (g s.trc).2, hg s, hg s', by simp [hs], by simp, by simp [hs], rfl, rfl, rfl, rfl, rfl, rfl⟩

/-- Settles O50: the frame of one sample, and that a flush leaves the initial state of the same format. -/
theorem decoderFieldFrame : Obligations.DecoderFieldFrame := by
  refine fun s => ⟨fun x => ?_, _, exec_decFlush s, rfl⟩
  obtain ⟨hprimed, hprev⟩ := s.dec.sample_polarity params (polarity x)
  refine ⟨_, exec_decSample x s, s.dec.sample_fmt params (polarity x), hprimed, hprev, fun hno => ?_⟩
  obtain ⟨hfirst, hacc, hbitpos, hout⟩ := Decoder.sample_of_no_transition params hno
  exact ⟨hfirst, hacc, hbitpos, by simp [hout]⟩

/-- Settles O51, by induction over the list of commands. -/
theorem commandsOnlyAppend : Obligations.CommandsOnlyAppend := by
  intro is s t hs
  obtain ⟨u, hu, hext⟩ := runCommands_extends is s
  cases hu.symm.trans hs
  exact ⟨hext.dout, hext.tout, hext.sout⟩

/-- Settles O11, one channel at a time: filled, then empty. -/
theorem drainTakesTheFrontElement : Obligations.DrainTakesTheFrontElement := by
  intro s rest
  refine ⟨fun v vs hin hd => ?_, fun v vs hin hd => ?_, fun v vs hin hd => ?_,
    fun hin hd => ?_, fun hin hd => ?_, fun hin hd => ?_⟩
  · exact ⟨by simp [State.doutPort, hd], by simp [step_takeDout hin, hd]⟩
  · exact ⟨by simp [State.toutPort, hd], by simp [step_takeTout hin, hd]⟩
  · exact ⟨by simp [State.soutPort, hd], by simp [step_takeSout hin, hd]⟩
  · simp [step_takeDout hin, hd]
  · simp [step_takeTout hin, hd]
  · simp [step_takeSout hin, hd]

/-- Settles O16, field by field. -/
theorem resetValues : Obligations.ResetValues :=
  ⟨rfl, rfl, rfl, rfl, rfl, rfl, rfl, State.reset_statusPort⟩

/-- Settles O18, from the initial state of PDEC and the zeros of S and T. -/
theorem invariantHoldsAtReset : Obligations.InvariantHoldsAtReset := State.reset_inv

/-- Settles O21, index by index. -/
theorem reservedStatusIndicesReadZero : Obligations.ReservedStatusIndicesReadZero :=
  fun s => ⟨s.statusPort_five, s.statusPort_six, s.statusPort_seven⟩

end Sys2Proof.Machine
end

section
/-! SUPPORT. Commands offered at the port (20_memory.md R65): the decoder's answer on an encoded word
(30_encoding.md R87, R88), and a command's indifference to the events that still wait. -/

namespace Sys2Proof

/-- Decoding undoes encoding: the fields of a command's word pass every check of R87, and each operand stands at its
bits (R88). -/
theorem decode_encode (i : Instr) : decode (encode i) = .legal i := by
  rw [decode, encode, fieldsOf_wordOf]
  cases i with
  | nop => rfl
  | decStart f r => simp [fieldsOfInstr, decodeFields]
  | decSample x => simp [fieldsOfInstr, decodeFields]
  | decFlush => rfl
  | encStart r => simp [fieldsOfInstr, decodeFields]
  | encByte b => simp [fieldsOfInstr, decodeFields]
  | trcStart f r => simp [fieldsOfInstr, decodeFields]
  | trcByte b => simp [fieldsOfInstr, decodeFields]

end Sys2Proof

namespace Sys2Proof.Machine

/-- A legal word at the port is its command executed (R65, R87). -/
theorem step_of_legal {s : State} {w : Word} {i : Instr} {rest : List PortEvent} (hin : s.input = .command w :: rest)
    (hw : decode w = .legal i) : step s = exec i (s.setInput rest) := by
  rw [step_of_input hin, takeEvent, acceptCommand, hw]

/-- Every command completes, and neither reads nor writes the events that still wait. -/
theorem exec_setInput (i : Instr) (s : State) :
    ∃ t, exec i s = .next t ∧ ∀ es, exec i (s.setInput es) = .next (t.setInput es) := by
  cases i with
  | nop => exact ⟨_, rfl, fun _ => rfl⟩
  | decStart f r => exact ⟨_, rfl, fun _ => rfl⟩
  | decSample x => exact ⟨_, rfl, fun _ => rfl⟩
  | decFlush => exact ⟨_, rfl, fun _ => rfl⟩
  | encStart r => exact ⟨_, rfl, fun _ => rfl⟩
  | encByte b => exact ⟨_, rfl, fun _ => rfl⟩
  | trcStart f r => exact ⟨_, rfl, fun _ => rfl⟩
  | trcByte b => exact ⟨_, rfl, fun _ => rfl⟩

/-- The events that offer the words of a list of commands, one after the other (log 1). -/
def offers (is : List Instr) : List PortEvent := is.map fun i => .command (encode i)

/-- One step per offered word runs the list of commands, whatever the host does afterwards (R65). -/
theorem core_run_offers (is : List Instr) (s : State) (rest : List PortEvent) :
    Host.Core.run core is.length (s.setInput (offers is ++ rest)) = runCommands is (s.setInput rest) := by
  induction is generalizing s with
  | nil => rfl
  | cons i is ih =>
    obtain ⟨t, -, ht⟩ := exec_setInput i s
    have hstep : step (s.setInput (offers (i :: is) ++ rest)) = .next (t.setInput (offers is ++ rest)) :=
      (step_of_legal rfl (decode_encode i)).trans (ht _)
    rw [List.length_cons, core_run_succ _ hstep, ih, runCommands_cons (ht rest)]

end Sys2Proof.Machine
end

section
/-! SUPPORT. The bits of one byte at PDEC (20_memory.md R58, R59; 40_pulse_decoder.md R108 to R110), and the lengths of
the headers (20_memory.md R57). -/

namespace Sys2Proof.Machine

/-- Bits that leave the byte incomplete emit nothing (R110). -/
theorem Decoder.accumulateBits_emits_nothing (d : Decoder) (bs : List Bool) (h : d.bitpos.toNat + bs.length ≤ 7) :
    (d.accumulateBits bs).2 = [] := by
  induction bs generalizing d with
  | nil => rfl
  | cons b bs ih =>
    rw [List.length_cons] at h
    have hne : d.bitpos ≠ 7#3 := fun e => by simp [e] at h
    have hsucc : (d.bitpos + 1#3).toNat = d.bitpos.toNat + 1 := by
      simp only [BitVec.toNat_add, BitVec.toNat_ofNat]; omega
    rw [Decoder.accumulateBits_cons, Decoder.accumulate_of_not_full hne, List.nil_append]
    exact ih _ (by simp only [hsucc]; omega)

/-- A decoder with no bit pending is already as a completed byte leaves it. -/
theorem Decoder.restart_of_empty {d : Decoder} (hacc : d.acc = 0#8) (hpos : d.bitpos = 0#3) :
    { d with acc := 0x00#8, bitpos := 0#3 } = d := by
  rw [← hacc, ← hpos]

theorem bitsMsbFirst_getElem? (b : Byte) {j : Nat} (hj : j < 8) : (bitsMsbFirst b)[j]? = some (b.getLsbD (7 - j)) := by
  interval_cases j <;> rfl

/-- Any eight bits are the bits of a byte in the encoder's order. -/
theorem exists_bitsMsbFirst_eq (b0 b1 b2 b3 b4 b5 b6 b7 : Bool) :
    ∃ b, bitsMsbFirst b = [b0, b1, b2, b3, b4, b5, b6, b7] := by
  refine ⟨BitVec.ofBoolListBE [b0, b1, b2, b3, b4, b5, b6, b7], ?_⟩
  revert b0 b1 b2 b3 b4 b5 b6 b7
  decide

/-- Bit `i` of the bit-reversal is bit `7 - i` of the byte (42_bit_order_transcoder.md R170). -/
theorem brev_getLsbD (b : Byte) {i : Nat} (hi : i < 8) : (brev b).getLsbD i = b.getLsbD (7 - i) := by
  revert b i
  decide

/-- The place of the `j`th arriving bit in the byte an `f` session assembles (R58, R59). -/
theorem bitsMsbFirst_getElem?_receivedByte (f : Format) (b : Byte) {j : Nat} (hj : j < 8) :
    (bitsMsbFirst b)[j]? = some (match f with
      | .new => (receivedByte f b).getLsbD (7 - j)
      | .old => (receivedByte f b).getLsbD j) := by
  rw [bitsMsbFirst_getElem? b hj]
  cases f with
  | new => rfl
  | old => rw [receivedByte, brev_getLsbD b hj]

/-- Each header is as long as its header length (R57). -/
theorem header_length (f : Format) : (header params f).length = hdrlen params f := by
  cases f with
  | new => rfl
  | old => exact oldHeader_length

end Sys2Proof.Machine
end

section
/-! PROOFS. The statements about the ports and the order of bits and commands (20_memory.md). -/

namespace Sys2Proof.Machine

/-- Settles O15, by induction over the list of commands. -/
theorem offeredWordsRunInOrder : Obligations.OfferedWordsRunInOrder := core_run_offers

/-- Settles O30: the eight bits are some byte's in the encoder's order, and the first seven leave it incomplete. -/
theorem eightBitsMakeAByte : Obligations.EightBitsMakeAByte := by
  intro d b0 b1 b2 b3 b4 b5 b6 b7 hacc hpos
  obtain ⟨b, hb⟩ := exists_bitsMsbFirst_eq b0 b1 b2 b3 b4 b5 b6 b7
  have hseven : (d.accumulateBits [b0, b1, b2, b3, b4, b5, b6]).2 = [] :=
    d.accumulateBits_emits_nothing _ (by simp [hpos])
  have hbyte : d.accumulateBits ([b0, b1, b2, b3, b4, b5, b6] ++ [b7]) = (d, [receivedByte d.fmt b]) := by
    rw [← foldl_shiftIn_bitsMsbFirst, hb, d.accumulateBits_completes _ (by simp [hpos]),
      Decoder.restart_of_empty hacc hpos, hacc]
    rfl
  rw [Decoder.accumulateBits_append, hseven, List.nil_append] at hbyte
  simp only [Decoder.accumulateBits_cons, Decoder.accumulateBits_nil, List.append_nil, List.append_eq_nil_iff,
    Prod.mk.eta] at hseven hbyte
  obtain ⟨h0, h1, h2, h3, h4, h5, h6⟩ := hseven
  rw [← hb]
  exact ⟨h0, h1, h2, h3, h4, h5, h6, receivedByte d.fmt b, hbyte,
    fun _ hj => bitsMsbFirst_getElem?_receivedByte d.fmt b hj⟩

/-- Settles O7, from what a legal word does at the port. -/
theorem stepRunsTheDecodedCommand : Obligations.StepRunsTheDecodedCommand :=
  fun _ _ _ _ => step_of_legal

/-- Settles O39, row by row. -/
theorem framingTable : Obligations.FramingTable :=
  ⟨rfl, rfl, params_oldHdr, rfl, header_length⟩

end Sys2Proof.Machine
end

section
/-! SUPPORT. The decoder's legal answers and the opcode map (30_encoding.md R87, R88): a legal word is the encoded
word of its command, and a row's mask and match fix the fields of the words it covers. -/

namespace Sys2Proof

@[simp] theorem fieldsOf_encode (i : Instr) : fieldsOf (encode i) = fieldsOfInstr i := fieldsOf_wordOf _

/-! ## Legal words -/

/-- The cases are R87's operations in order; in each, the checks that passed leave no field free but the operand. -/
theorem fieldsOfInstr_of_decodeFields {x : Fields} {i : Instr} (h : decodeFields x = .legal i) :
    fieldsOfInstr i = x := by
  obtain ⟨op, mod, rsv, data⟩ := x
  simp only [decodeFields, ite_eq_iff, reduceCtorEq, and_false, false_or, ne_eq, not_or, not_not,
    Decoded.legal.injEq] at h
  obtain ⟨hop, rfl, h⟩ := h
  obtain
      ⟨rfl, ⟨rfl, rfl⟩, rfl⟩ | ⟨h0,
      ⟨rfl, ⟨hmod, rfl⟩, rfl⟩ | ⟨h1,
      ⟨rfl, rfl, rfl⟩ | ⟨h2,
      ⟨rfl, ⟨rfl, rfl⟩, rfl⟩ | ⟨h3,
      ⟨rfl, ⟨hmod, rfl⟩, hnew, rfl⟩ | ⟨h4,
      ⟨rfl, ⟨rfl, hdata⟩, rfl⟩ | ⟨h5,
      ⟨rfl, ⟨hmod, rfl⟩, rfl⟩ | ⟨h6,
      ⟨rfl, hdata⟩, rfl⟩⟩⟩⟩⟩⟩⟩ := h
  · rfl
  · rw [fieldsOfInstr, startMod_of_high mod hmod]
  · rfl
  · rfl
  · have hfmt : Format.ofBit (mod.getLsbD 0) = .new := if_neg hnew
    rw [fieldsOfInstr, ← hfmt, startMod_of_high mod hmod]
  · rw [fieldsOfInstr, byteData_of_high data hdata]
  · rw [fieldsOfInstr, startMod_of_high mod hmod]
  · have h7 : op = 7#4 := by bv_omega
    rw [fieldsOfInstr, byteData_of_high data hdata, h7]

/-- Encoding undoes decoding: a legal word has no bits but those of its command. -/
theorem encode_of_decode {w : Word} {i : Instr} (h : decode w = .legal i) : encode i = w := by
  rw [encode, fieldsOfInstr_of_decodeFields h, wordOf_fieldsOf]

theorem decode_of_fields {w : Word} {i : Instr} (h : fieldsOf w = fieldsOfInstr i) : decode w = .legal i := by
  rw [← decode_encode i, decode, decode, h, fieldsOf_encode]

/-! ## `MOD` and `DATA` under the masks of R88 -/

theorem startMod_of_mask (m : BitVec 4) (h : m &&& 0xC#4 = 0#4) :
    m = startMod (.ofBit (m.getLsbD 0)) (.ofBit (m.getLsbD 1)) := by
  revert m; decide

theorem startMod_new_of_mask (m : BitVec 4) (h : m &&& 0xD#4 = 0#4) : m = startMod .new (.ofBit (m.getLsbD 1)) := by
  revert m; decide

theorem startMod_and_mask (f : Format) (r : Mode) : startMod f r &&& 0xC#4 = 0#4 := by
  cases f <;> cases r <;> rfl

theorem startMod_new_and_mask (r : Mode) : startMod .new r &&& 0xD#4 = 0#4 := by
  cases r <;> rfl

theorem byteData_of_mask (v : BitVec 16) (h : v &&& 0xFF00#16 = 0#16) : v = 0#8 ++ v.extractLsb' 0 8 := by
  have hhigh : v.extractLsb' 8 8 &&& .allOnes 8 = 0#8 :=
    BitVec.extractLsb'_and.symm.trans (congrArg (BitVec.extractLsb' 8 8) h)
  rw [BitVec.and_allOnes] at hhigh
  exact (byteData_of_high v hhigh).symm

theorem byteData_and_mask (b : Byte) : (0#8 ++ b : BitVec 16) &&& 0xFF00#16 = 0#16 := by
  have h : (0#8 ++ b) &&& (0xFF#8 ++ 0#8) = (0#8 &&& 0xFF#8) ++ (b &&& 0#8) := BitVec.and_append
  rw [BitVec.and_zero] at h
  exact h

/-! ## Words under the masks of R88 -/

/-- Every mask of the map shows the whole of `OP` and `RSV`: the words under it, field by field. -/
theorem and_mask_eq_iff (w : Word) (m : BitVec 4) (d : BitVec 16) (x : Fields) :
    w &&& wordOf ⟨.allOnes 4, m, .allOnes 8, d⟩ = wordOf x ↔
      Fields.mk (fieldsOf w).op ((fieldsOf w).mod &&& m) (fieldsOf w).rsv ((fieldsOf w).data &&& d) = x := by
  have hfields : fieldsOf (w &&& wordOf ⟨.allOnes 4, m, .allOnes 8, d⟩) =
      ⟨(fieldsOf w).op, (fieldsOf w).mod &&& m, (fieldsOf w).rsv, (fieldsOf w).data &&& d⟩ := by
    rw [fieldsOf_and, fieldsOf_wordOf, BitVec.and_allOnes, BitVec.and_allOnes]
  rw [← hfields]
  exact ⟨fun h => by rw [h, fieldsOf_wordOf], fun h => fieldsOf_injective (h.trans (fieldsOf_wordOf x).symm)⟩

theorem mod_getLsbD_zero (w : Word) : (fieldsOf w).mod.getLsbD 0 = w.getLsbD 24 := by simp [fieldsOf]

theorem mod_getLsbD_one (w : Word) : (fieldsOf w).mod.getLsbD 1 = w.getLsbD 25 := by simp [fieldsOf]

theorem data_eq_setWidth (w : Word) : (fieldsOf w).data = w.setWidth 16 :=
  (BitVec.setWidth_eq_extractLsb' (by decide)).symm

theorem data_low_eq_setWidth (w : Word) : (fieldsOf w).data.extractLsb' 0 8 = w.setWidth 8 := by
  rw [data_eq_setWidth, BitVec.extractLsb'_setWidth_of_le (by decide), BitVec.setWidth_eq_extractLsb' (by decide)]

section
variable {w : Word} {op : BitVec 4}

/-- DEC_START and TRC_START: `MOD[1:0]` is free (R86). -/
theorem fieldsOf_of_start_mask (h : w &&& 0xFCFFFFFF#32 = wordOf ⟨op, 0#4, 0#8, 0#16⟩) :
    fieldsOf w = ⟨op, startMod (.ofBit (w.getLsbD 24)) (.ofBit (w.getLsbD 25)), 0#8, 0#16⟩ := by
  obtain ⟨hop, hmod, hrsv, hdata⟩ := Fields.mk.inj ((and_mask_eq_iff w 0xC#4 (.allOnes 16) _).mp h)
  rw [BitVec.and_allOnes] at hdata
  rw [← hop, ← mod_getLsbD_zero, ← mod_getLsbD_one, ← startMod_of_mask _ hmod, ← hrsv, ← hdata]

/-- ENC_START: `MOD[1]` is free (R86). -/
theorem fieldsOf_of_encStart_mask (h : w &&& 0xFDFFFFFF#32 = wordOf ⟨op, 0#4, 0#8, 0#16⟩) :
    fieldsOf w = ⟨op, startMod .new (.ofBit (w.getLsbD 25)), 0#8, 0#16⟩ := by
  obtain ⟨hop, hmod, hrsv, hdata⟩ := Fields.mk.inj ((and_mask_eq_iff w 0xD#4 (.allOnes 16) _).mp h)
  rw [BitVec.and_allOnes] at hdata
  rw [← hop, ← mod_getLsbD_one, ← startMod_new_of_mask _ hmod, ← hrsv, ← hdata]

/-- DEC_SAMPLE: all of `DATA` is free (R84). -/
theorem fieldsOf_of_sample_mask (h : w &&& 0xFFFF0000#32 = wordOf ⟨op, 0#4, 0#8, 0#16⟩) :
    fieldsOf w = ⟨op, 0#4, 0#8, w.setWidth 16⟩ := by
  obtain ⟨hop, hmod, hrsv, -⟩ := Fields.mk.inj ((and_mask_eq_iff w (.allOnes 4) 0#16 _).mp h)
  rw [BitVec.and_allOnes] at hmod
  rw [← hop, ← hmod, ← hrsv, ← data_eq_setWidth]

/-- ENC_BYTE and TRC_BYTE: `DATA[7:0]` is free (R84). -/
theorem fieldsOf_of_byte_mask (h : w &&& 0xFFFFFF00#32 = wordOf ⟨op, 0#4, 0#8, 0#16⟩) :
    fieldsOf w = ⟨op, 0#4, 0#8, 0#8 ++ w.setWidth 8⟩ := by
  obtain ⟨hop, hmod, hrsv, hdata⟩ := Fields.mk.inj ((and_mask_eq_iff w (.allOnes 4) 0xFF00#16 _).mp h)
  rw [BitVec.and_allOnes] at hmod
  rw [← data_low_eq_setWidth, ← byteData_of_mask _ hdata, ← hop, ← hmod, ← hrsv]

/-- NOP and DEC_FLUSH: the row covers one word. -/
theorem eq_of_full_mask {v : Word} (h : w &&& 0xFFFFFFFF#32 = v) : w = v := BitVec.and_allOnes.symm.trans h

end

/-! ## The rows of R88 -/

theorem fieldsOfInstr_rsv (i : Instr) : (fieldsOfInstr i).rsv = 0#8 := by
  cases i <;> rfl

/-- A row covers a command's word when its pattern has the command's `OP` and its mask hides the command's operand. -/
theorem covers_encode {row : OpcodeRow} {i : Instr} (op : BitVec 4) {m : BitVec 4} {d : BitVec 16}
    (hop : (fieldsOfInstr i).op = op) (hmod : (fieldsOfInstr i).mod &&& m = 0#4)
    (hdata : (fieldsOfInstr i).data &&& d = 0#16) (hmask : row.mask = wordOf ⟨.allOnes 4, m, .allOnes 8, d⟩)
    (hpattern : row.pattern = wordOf ⟨op, 0#4, 0#8, 0#16⟩) : row.covers (encode i) = true := by
  rw [OpcodeRow.covers, beq_iff_eq, hmask, hpattern, and_mask_eq_iff, fieldsOf_encode, hop, hmod, hdata,
    fieldsOfInstr_rsv]

theorem exists_row_covers_encode (i : Instr) : ∃ row ∈ opcodeRows, row.covers (encode i) = true := by
  cases i with
  | nop => exact ⟨opcodeRows[0], List.getElem_mem _, rfl⟩
  | decStart f r =>
    exact ⟨opcodeRows[1], List.getElem_mem _, covers_encode 1#4 rfl (startMod_and_mask f r) BitVec.and_allOnes rfl rfl⟩
  | decSample x =>
    exact ⟨opcodeRows[2], List.getElem_mem _, covers_encode 2#4 rfl BitVec.and_allOnes BitVec.and_zero rfl rfl⟩
  | decFlush => exact ⟨opcodeRows[3], List.getElem_mem _, rfl⟩
  | encStart r =>
    exact ⟨opcodeRows[4], List.getElem_mem _, covers_encode 4#4 rfl (startMod_new_and_mask r) BitVec.and_allOnes
      rfl rfl⟩
  | encByte b =>
    exact ⟨opcodeRows[5], List.getElem_mem _, covers_encode 5#4 rfl BitVec.and_allOnes (byteData_and_mask b) rfl rfl⟩
  | trcStart f r =>
    exact ⟨opcodeRows[6], List.getElem_mem _, covers_encode 6#4 rfl (startMod_and_mask f r) BitVec.and_allOnes rfl rfl⟩
  | trcByte b =>
    exact ⟨opcodeRows[7], List.getElem_mem _, covers_encode 7#4 rfl BitVec.and_allOnes (byteData_and_mask b) rfl rfl⟩

/-- A word that no row covers is illegal. -/
theorem decode_illegal_of_no_row {w : Word} (h : ∀ row ∈ opcodeRows, row.covers w = false) :
    ∃ c, decode w = .illegal c := by
  cases hd : decode w with
  | illegal c => exact ⟨c, rfl⟩
  | legal i =>
    obtain ⟨row, hrow, hcovers⟩ := exists_row_covers_encode i
    rw [encode_of_decode hd, h row hrow] at hcovers
    contradiction

/-- A row covers only words with its own `OP`. -/
theorem op_of_covers {row : OpcodeRow} (hrow : row ∈ opcodeRows) {w : Word} (h : row.covers w = true) :
    (fieldsOf w).op = (fieldsOf row.pattern).op := by
  have hmask : ∀ row ∈ opcodeRows, (fieldsOf row.mask).op = .allOnes 4 := by decide
  rw [← beq_iff_eq.mp h, fieldsOf_and, hmask row hrow, BitVec.and_allOnes]

/-- No two rows overlap, since each has its own `OP`. -/
theorem opcodeRows_pairwise_disjoint :
    opcodeRows.Pairwise fun a b => ∀ w : Word, ¬ (a.covers w = true ∧ b.covers w = true) := by
  have hops : opcodeRows.Pairwise fun a b => (fieldsOf a.pattern).op ≠ (fieldsOf b.pattern).op := by decide
  refine hops.imp_of_mem fun ha hb hne w ⟨hwa, hwb⟩ => hne ?_
  rw [← op_of_covers ha hwa, op_of_covers hb hwb]

end Sys2Proof
end

section
/-! SUPPORT. The assembler (30_encoding.md R92, R93): the words of the commands with an immediate, and a line of several
commands as its single lines in order. -/

namespace Sys2Proof

/-! ## The words of commands with an immediate -/

/-- `DATA` is the low half of the word (R81). -/
theorem wordOf_data (op : BitVec 4) (data : BitVec 16) :
    wordOf ⟨op, 0#4, 0#8, data⟩ = wordOf ⟨op, 0#4, 0#8, 0#16⟩ ||| data.setWidth 32 := by
  have hdata : data.setWidth 32 = 0#16 ++ data := BitVec.setWidth_eq_append (by decide)
  have hor : (op ++ 0#4 ++ 0#8 ++ 0#16) ||| (0#16 ++ data) = (op ++ 0#4 ++ 0#8 ||| 0#16) ++ (0#16 ||| data) :=
    BitVec.or_append
  rw [BitVec.or_zero, BitVec.zero_or] at hor
  rw [hdata]
  exact hor.symm

theorem byteData_setWidth (b : Byte) : (0#8 ++ b : BitVec 16).setWidth 32 = b.setWidth 32 := by
  have hb : b.setWidth 16 = 0#8 ++ b := BitVec.setWidth_eq_append (by decide)
  rw [← hb, BitVec.setWidth_setWidth (by decide)]

theorem encode_decSample (x : Sample) : encode (.decSample x) = 0x20000000#32 ||| x.setWidth 32 :=
  wordOf_data 2#4 x

theorem encode_encByte (b : Byte) : encode (.encByte b) = 0x50000000#32 ||| b.setWidth 32 := by
  rw [← byteData_setWidth]
  exact wordOf_data 5#4 _

theorem encode_trcByte (b : Byte) : encode (.trcByte b) = 0x70000000#32 ||| b.setWidth 32 := by
  rw [← byteData_setWidth]
  exact wordOf_data 7#4 _

/-! ## Immediates in range -/

theorem Imm.toSample_hex_setWidth {v : Nat} (h : v ≤ 0xFFFF) : (Imm.hex v).toSample.setWidth 32 = BitVec.ofNat 32 v :=
  BitVec.setWidth_ofNat_of_le_of_lt (by decide) (by omega)

theorem Imm.toByte_hex_setWidth {v : Nat} (h : v ≤ 0xFF) : (Imm.hex v).toByte.setWidth 32 = BitVec.ofNat 32 v :=
  BitVec.setWidth_ofNat_of_le_of_lt (by decide) (by omega)

/-- In range, a byte in decimal is the same byte in hexadecimal. -/
theorem Imm.toByte_dec_setWidth {v : Int} (h : 0 ≤ v ∧ v ≤ 255) :
    (Imm.dec v).toByte.setWidth 32 = BitVec.ofInt 32 v := by
  obtain ⟨n, rfl⟩ := Int.eq_ofNat_of_zero_le h.1
  have hn : n ≤ 0xFF := by omega
  exact Imm.toByte_hex_setWidth hn

/-! ## Lines with one immediate, and lists of them -/

/-- A line whose immediate passes the check `ok` assembles to its one command; any other is refused (R92). -/
def AssemblesTo (line : Imm → AsmLine) (ok : Imm → Bool) (command : Imm → Instr) : Prop :=
  ∀ imm, assemble (line imm) = if ok imm then some [encode (command imm)] else none

theorem decSample_assemblesTo : AssemblesTo .decSample Imm.sampleOk (.decSample ·.toSample) := fun _ => rfl

theorem encByte_assemblesTo : AssemblesTo .encByte Imm.byteOk (.encByte ·.toByte) := fun _ => rfl

theorem trcByte_assemblesTo : AssemblesTo .trcByte Imm.byteOk (.trcByte ·.toByte) := fun _ => rfl

/-- One more word before the words of the lines that follow. -/
theorem flatten_bind_cons (rest : Option (List (List Word))) (w : Word) :
    (rest.bind fun words => some ([w] :: words)).map List.flatten = (rest.map List.flatten).map (w :: ·) := by
  cases rest <;> rfl

section
variable {line : Imm → AsmLine} {ok : Imm → Bool} {command : Imm → Instr} (h : AssemblesTo line ok command)
include h

/-- The word of the line, where the check is the proposition `p` and the word is needed only in range. -/
theorem AssemblesTo.eq_ite {imm : Imm} {p : Prop} [Decidable p] {w : Word} (hok : ok imm = decide p)
    (hw : p → encode (command imm) = w) : assemble (line imm) = if p then some [w] else none := by
  rw [h imm, hok]
  by_cases hp : p
  · simp [hp, hw hp]
  · simp [hp]

/-- The single lines in order: their words, or a refusal if one of them is refused (R93). -/
theorem AssemblesTo.mapM_eq_ite (imms : List Imm) :
    (imms.mapM fun imm => assemble (line imm)).map List.flatten =
      if imms.all ok then some ((imms.map command).map encode) else none := by
  induction imms with
  | nil => rfl
  | cons imm imms ih =>
    rw [List.mapM_cons, h imm, List.all_cons]
    cases ok imm with
    | false => rfl
    | true =>
      refine (flatten_bind_cons _ (encode (command imm))).trans ?_
      rw [ih]
      cases imms.all ok <;> rfl

end

/-! ## DEC_RUN -/

/-- A DEC_RUN that may stand is its copies of one sample (R93). -/
theorem assemble_decRun (sign : RunSign) (n : Nat) :
    assemble (.decRun sign n) =
      if sign.countOk n then some (List.replicate n (encode (.decSample sign.sample))) else none := by
  rw [assemble, AsmLine.commands, List.map_replicate, AsmLine.wellFormed]

theorem RunSign.countOk_plus (n : Nat) : RunSign.plus.countOk n = true ↔ 1 ≤ n := decide_eq_true_iff
theorem RunSign.countOk_minus (n : Nat) : RunSign.minus.countOk n = true ↔ 1 ≤ n := decide_eq_true_iff

end Sys2Proof
end

section
/-! PROOFS. The statements about the encoding and the assembler (30_encoding.md). -/

namespace Sys2Proof.Machine

/-- Settles O1: the fields of a command's word pass every check of the decoder. -/
theorem decodeEncodeAgree : Obligations.DecodeEncodeAgree := decode_encode

/-- Settles O2: the checks of the decoder leave no field of a legal word free. -/
theorem encodeDecodeAgree : Obligations.EncodeDecodeAgree := fun _ _ => encode_of_decode

/-- Settles O3: a row's mask and match fix the fields of the words it covers, every encoded word is covered by a row,
and each row has its own `OP`. -/
theorem legalWordsAreTheTableRows : Obligations.LegalWordsAreTheTableRows :=
  ⟨fun _ h => eq_of_full_mask h ▸ decode_encode .nop,
    fun _ h => decode_of_fields (i := .decStart _ _) (fieldsOf_of_start_mask (op := 1#4) h),
    fun _ h => decode_of_fields (i := .decSample _) (fieldsOf_of_sample_mask (op := 2#4) h),
    fun _ h => eq_of_full_mask h ▸ decode_encode .decFlush,
    fun _ h => decode_of_fields (i := .encStart _) (fieldsOf_of_encStart_mask (op := 4#4) h),
    fun _ h => decode_of_fields (i := .encByte _) (fieldsOf_of_byte_mask (op := 5#4) h),
    fun _ h => decode_of_fields (i := .trcStart _ _) (fieldsOf_of_start_mask (op := 6#4) h),
    fun _ h => decode_of_fields (i := .trcByte _) (fieldsOf_of_byte_mask (op := 7#4) h),
    fun _ h => decode_illegal_of_no_row h,
    opcodeRows_pairwise_disjoint⟩

/-- Settles O6: the fixed words, then the lines with one immediate, the runs and the lists. -/
theorem assemblerRefusesOutOfRange : Obligations.AssemblerRefusesOutOfRange := by
  refine ⟨⟨rfl, rfl, rfl, rfl, rfl, rfl, rfl, rfl, rfl, rfl, rfl, rfl, rfl⟩,
    fun v => decSample_assemblesTo.eq_ite rfl fun _ => encode_decSample _,
    fun v => decSample_assemblesTo.eq_ite rfl fun hv => ?_,
    fun v => encByte_assemblesTo.eq_ite rfl fun hv => ?_,
    fun v => encByte_assemblesTo.eq_ite rfl fun hv => ?_,
    fun v => trcByte_assemblesTo.eq_ite rfl fun hv => ?_,
    fun v => trcByte_assemblesTo.eq_ite rfl fun hv => ?_,
    fun n => ⟨?_, ?_, fun _ => assemble_decRun .zero n⟩,
    fun b bs => ⟨(encByte_assemblesTo.mapM_eq_ite (b :: bs)).symm, (trcByte_assemblesTo.mapM_eq_ite (b :: bs)).symm,
      (decSample_assemblesTo.mapM_eq_ite (b :: bs)).symm⟩⟩
  · rw [encode_decSample, Imm.toSample_hex_setWidth hv]
  · rw [encode_encByte, Imm.toByte_dec_setWidth hv]
  · rw [encode_encByte, Imm.toByte_hex_setWidth hv]
  · rw [encode_trcByte, Imm.toByte_dec_setWidth hv]
  · rw [encode_trcByte, Imm.toByte_hex_setWidth hv]
  · simp only [assemble_decRun, RunSign.countOk_plus]
    rfl
  · simp only [assemble_decRun, RunSign.countOk_minus]
    rfl

/-- Settles O5: each word, written out, is the encoded word of its command. -/
theorem spelledWordsDecode : Obligations.SpelledWordsDecode :=
  ⟨decode_encode .nop, decode_encode (.decStart .old .raw), decode_encode (.decSample 0xFFFE#16),
    decode_encode (.encByte 0xA5#8), decode_encode (.trcStart .old .image)⟩

end Sys2Proof.Machine
end

section
/-! SUPPORT. The run-length reference of the decoder, one sample and one byte at a time: what a sample adds to the runs
and to their bits (40_pulse_decoder.md R105 to R107, R118), and a bit sequence as whole bytes and a padded one (R110,
R112, R113, R117). -/

namespace Sys2Proof.Reference

open Machine

/-! ## The runs of a polarity sequence -/

/-- Only the first run of `runsFrom` depends on the samples that came before, by its length. -/
theorem exists_runsFrom_eq (p : Bool) (ps : List Bool) :
    ∃ k rest, ∀ n, runsFrom p n ps = (n + k) :: rest := by
  induction ps with
  | nil => exact ⟨0, [], fun _ => rfl⟩
  | cons q qs ih =>
    by_cases hq : q = p
    · obtain ⟨k, rest, h⟩ := ih
      exact ⟨k + 1, rest, fun n => by rw [runsFrom, if_pos hq, h, Nat.add_right_comm, Nat.add_assoc]⟩
    · exact ⟨0, runsFrom q 1 qs, fun n => by rw [runsFrom, if_neg hq, Nat.add_zero]⟩

theorem runsFrom_ne_nil (p : Bool) (n : Nat) (ps : List Bool) : runsFrom p n ps ≠ [] := by
  obtain ⟨k, rest, h⟩ := exists_runsFrom_eq p ps
  simp [h]

/-- The bits the polarities `ps` add to a session that is in a run of polarity `p` with `n` samples counted. The open
run is a second half when `firstPart` is true, and otherwise a first half, whose count is scored against 11 (R106,
R107). -/
def pendingBits (firstPart p : Bool) (n : Nat) (ps : List Bool) : List Bool :=
  if firstPart then laterBits (runsFrom p n ps).dropLast else scoredBits (runsFrom p n ps).dropLast

@[simp] theorem pendingBits_nil (firstPart p : Bool) (n : Nat) : pendingBits firstPart p n [] = [] := by
  cases firstPart <;> rfl

/-- A sample of the same polarity counts (R105). -/
theorem pendingBits_of_same {p q : Bool} (hq : q = p) (firstPart : Bool) (n : Nat) (ps : List Bool) :
    pendingBits firstPart p n (q :: ps) = pendingBits firstPart p (n + 1) ps := by
  simp [pendingBits, runsFrom, hq]

/-- The sample that ends a first half scores it, and starts a second half (R106, R107). -/
theorem pendingBits_of_first_half {p q : Bool} (hq : q ≠ p) (n : Nat) (ps : List Bool) :
    pendingBits false p n (q :: ps) = decide (11 ≤ n) :: pendingBits true q 1 ps := by
  simp [pendingBits, runsFrom, hq, List.dropLast_cons_of_ne_nil (runsFrom_ne_nil q 1 ps), scoredBits]

/-- The sample that ends a second half starts a first half and is not counted in it (R105, R106): a later run of `L`
samples scores 1 when `L >= 12`, so its count is held against 11 (R118). -/
theorem pendingBits_of_second_half {p q : Bool} (hq : q ≠ p) (n : Nat) (ps : List Bool) :
    pendingBits true p n (q :: ps) = pendingBits false q 0 ps := by
  obtain ⟨k, rest, h⟩ := exists_runsFrom_eq q ps
  cases rest with
  | nil => simp [pendingBits, runsFrom, hq, h, laterBits, scoredBits]
  | cons m ms => simp [pendingBits, runsFrom, hq, h, laterBits, scoredBits, Nat.add_comm 1 k]

/-- The first sample of a session opens a first half in which it is counted (R103). -/
theorem payloadBits_cons (p : Bool) (ps : List Bool) : payloadBits (p :: ps) = pendingBits false p 1 ps := rfl

/-! ## The bytes of a bit sequence -/

/-- Every bit sequence is whole bytes and at most seven bits more. -/
theorem exists_bytes_append_eq (bits : List Bool) :
    ∃ (bytes : List Byte) (part : List Bool), bits = bytes.flatMap bitsMsbFirst ++ part ∧ part.length < 8 := by
  induction bits using List.reverseRecOn with
  | nil => exact ⟨[], [], rfl, by decide⟩
  | append_singleton bits bit ih =>
    obtain ⟨bytes, part, rfl, hlt⟩ := ih
    by_cases hseven : part.length = 7
    · match part, hseven with
      | [b0, b1, b2, b3, b4, b5, b6], _ =>
        obtain ⟨b, hb⟩ := exists_bitsMsbFirst_eq b0 b1 b2 b3 b4 b5 b6 bit
        exact ⟨bytes ++ [b], [], by simp [hb], by decide⟩
    · exact ⟨bytes, part ++ [bit], List.append_assoc .., by simp; omega⟩

/-- At most seven bits, padded with zeros, are the bits of a byte (R112). -/
theorem exists_bitsMsbFirst_eq_padded {part : List Bool} (h : part.length < 8) :
    ∃ b, bitsMsbFirst b = part ++ List.replicate (8 - part.length) false := by
  have hlen : (part ++ List.replicate (8 - part.length) false).length = 8 := by simp; omega
  match part ++ List.replicate (8 - part.length) false, hlen with
  | [b0, b1, b2, b3, b4, b5, b6, b7], _ => exact exists_bitsMsbFirst_eq b0 b1 b2 b3 b4 b5 b6 b7

/-- Zeros at the end of a sequence leave its byte as it is (R112). -/
theorem placeBits_append_zeros (pos : Nat → Nat) (j : Nat) (bits : List Bool) (k : Nat) :
    placeBits pos j (bits ++ List.replicate k false) = placeBits pos j bits := by
  induction bits generalizing j with
  | nil =>
    induction k generalizing j with
    | zero => rfl
    | succ k ih => simpa [List.replicate_succ, placeBits] using ih (j + 1)
  | cons b bits ih => rw [List.cons_append, placeBits, ih, placeBits]

theorem byteOfBits_append_zeros (f : Format) (bits : List Bool) (k : Nat) :
    byteOfBits f (bits ++ List.replicate k false) = byteOfBits f bits := by
  cases f with
  | new => exact placeBits_append_zeros _ 0 bits k
  | old => exact placeBits_append_zeros _ 0 bits k

/-- The eight bits of a byte make the byte an `f` session assembles from them (R58, R59). -/
theorem byteOfBits_bitsMsbFirst (f : Format) (b : Byte) : byteOfBits f (bitsMsbFirst b) = receivedByte f b := by
  cases f with
  | new => revert b; decide
  | old => revert b; decide

theorem byteOfBits_of_padded {b : Byte} {part : List Bool} {k : Nat}
    (h : bitsMsbFirst b = part ++ List.replicate k false) (f : Format) : byteOfBits f part = receivedByte f b := by
  rw [← byteOfBits_bitsMsbFirst, h, byteOfBits_append_zeros]

/-- Whole bytes are packed one by one (R110). -/
theorem packBits_bytes_append (f : Format) (bytes : List Byte) (part : List Bool) :
    packBits f (bytes.flatMap bitsMsbFirst ++ part) = bytes.map (receivedByte f) ++ packBits f part := by
  induction bytes with
  | nil => rfl
  | cons b bytes ih =>
    have hstep : ∀ rest, packBits f (bitsMsbFirst b ++ rest) = byteOfBits f (bitsMsbFirst b) :: packBits f rest :=
      fun _ => rfl
    rw [List.flatMap_cons, List.append_assoc, hstep, ih, byteOfBits_bitsMsbFirst]
    rfl

/-- One to seven bits are packed into one padded byte (R113). -/
theorem packBits_of_partial (f : Format) {part : List Bool} (hne : part ≠ []) (hlt : part.length < 8) :
    packBits f part = [byteOfBits f part] := by
  unfold packBits
  split
  · simp only [List.length_cons] at hlt; omega
  · contradiction
  · rfl

/-- A bit sequence packs to the same bytes in either format, each as its format assembles it (R117). -/
theorem exists_packBits_eq_map (bits : List Bool) :
    ∃ bytes : List Byte, ∀ f, packBits f bits = bytes.map (receivedByte f) := by
  obtain ⟨bytes, part, rfl, hlt⟩ := exists_bytes_append_eq bits
  by_cases hne : part = []
  · exact ⟨bytes, fun f => by rw [packBits_bytes_append, hne]; exact List.append_nil _⟩
  · obtain ⟨b, hb⟩ := exists_bitsMsbFirst_eq_padded hlt
    refine ⟨bytes ++ [b], fun f => ?_⟩
    rw [packBits_bytes_append, packBits_of_partial f hne hlt, byteOfBits_of_padded hb, List.map_append]
    rfl

end Sys2Proof.Reference
end

section
/-! SUPPORT. Sessions of PDEC (40_pulse_decoder.md): a run and the sample that closes it, the samples of a session as
the bits of the run-length reference, and those bits and the flush as its bytes (R100, R103 to R115, R118). -/

namespace Sys2Proof.Machine

open Reference

/-! ## One sample -/

/-- The polarity bits of R104: the sign bit is clear, and the sample is not zero. -/
theorem polarity_iff_bits (x : Sample) : polarity x = true ↔ x.getLsbD 15 = false ∧ x ≠ 0#16 := by
  have hpolarity : polarity x = true ↔ 0 < x.toInt := decide_eq_true_iff
  have hmsb : x.msb = x.getLsbD 15 := x.msb_eq_getLsbD_last
  rw [hpolarity, ← hmsb]
  cases hsign : x.msb with
  | true => simp [Int.le_of_lt (BitVec.toInt_neg_of_msb_true hsign)]
  | false => simp [BitVec.toInt_eq_toNat_of_msb hsign, Nat.pos_iff_ne_zero, ← BitVec.toNat_inj]

/-- A PDEC result that emits nothing writes D alone. -/
theorem State.applyDec_silent (s : State) (d : Decoder) : s.applyDec (d, []) = { s with dec := d } := by
  simp [State.applyDec, State.setDec, State.emitDout]

theorem scoreRun_params_iff (v : BitVec 8) : scoreRun params v = true ↔ 11 ≤ v.toNat := decide_eq_true_iff

/-- The comparator on the saturating counter is the comparator on the count (R105, R107). -/
theorem scoreRun_params (v : BitVec 8) {n : Nat} (h : v.toNat = min 255 n) : scoreRun params v = decide (11 ≤ n) :=
  decide_eq_decide.mpr (by rw [params_thresh]; omega)

/-- The sample that ends a first half accumulates the bit scored and starts a second half (R106). The byte in progress
may be taken from any decoder `d` that agrees with `e` apart from the flags. -/
theorem Decoder.sample_of_scored_half {d e : Decoder} (hclear : e.clearFlags = d.clearFlags) (hprimed : e.primed = true)
    (hfirst : e.firstPart = false) {p bit : Bool} (hp : p ≠ e.prev) (hbit : scoreRun params e.cnt = bit) :
    (e.sample params p).1.clearFlags = (d.accumulate bit).1.clearFlags ∧ (e.sample params p).1.firstPart = true ∧
      (e.sample params p).2 = (d.accumulate bit).2 := by
  have haccumulate := d.clearFlags_accumulate bit
  rw [← hclear, Decoder.clearFlags_accumulate] at haccumulate
  obtain ⟨hstate, hout⟩ := Prod.mk.inj haccumulate
  obtain ⟨-, -, -, -, hfirst'⟩ := e.accumulate_frame bit
  rw [Decoder.sample_of_first_half params hprimed hp hfirst, hbit]
  exact ⟨hstate, by simp [hfirst', hfirst], hout⟩

/-- The sample of a transition is not counted in the run it starts, and turns the toggle (R105, R106). -/
theorem Decoder.sample_of_transition (c : Config) {d : Decoder} {p : Bool} (hprimed : d.primed = true)
    (hp : p ≠ d.prev) :
    (d.sample c p).1.cnt = 0#8 ∧ (d.sample c p).1.firstPart = !d.firstPart := by
  cases hfirst : d.firstPart with
  | true => simp [Decoder.sample_of_second_half c hprimed hp hfirst, hfirst]
  | false =>
    obtain ⟨-, -, -, -, hfirst'⟩ := d.accumulate_frame (scoreRun c d.cnt)
    simp [Decoder.sample_of_first_half c hprimed hp hfirst, hfirst', hfirst]

/-- What clearing the flags leaves is the byte in progress. -/
theorem Decoder.byte_eq_of_clearFlags {d e : Decoder} (h : d.clearFlags = e.clearFlags) :
    d.acc = e.acc ∧ d.bitpos = e.bitpos :=
  ⟨(congrArg Decoder.acc h :), (congrArg Decoder.bitpos h :)⟩

/-- The commands of a run that a sample of the other polarity closes: where the run `xs` leaves the decoder in an open
first half `e`, the closing sample accumulates the bit of its count into the byte in progress before the run (R118). -/
theorem runCommands_scored_run {s : State} {e : Decoder} {xs : List Sample} {close : Sample} {bit : Bool}
    (hrun : s.dec.samples params xs = (e, [])) (hclear : e.clearFlags = s.dec.clearFlags) (hprimed : e.primed = true)
    (hfirst : e.firstPart = false) (hp : polarity close ≠ e.prev) (hbit : scoreRun params e.cnt = bit) :
    ∃ t, runCommands ((xs ++ [close]).map .decSample) s = .next t ∧
      t.dec.acc = (s.dec.accumulate bit).1.acc ∧ t.dec.bitpos = (s.dec.accumulate bit).1.bitpos ∧
      t.dec.firstPart = true ∧ t.dout = s.dout ++ (s.dec.accumulate bit).2 := by
  obtain ⟨hstate, hfirst', hout⟩ := Decoder.sample_of_scored_half hclear hprimed hfirst hp hbit
  have hsamples : s.dec.samples params (xs ++ [close]) = e.sample params (polarity close) := by
    rw [Decoder.samples_append, hrun]
    simp [Decoder.samples_cons]
  obtain ⟨hacc, hbitpos⟩ := Decoder.byte_eq_of_clearFlags hstate
  refine ⟨_, runCommands_decSamples _ s, ?_⟩
  rw [hsamples]
  exact ⟨hacc, hbitpos, hfirst', congrArg (s.dout ++ ·) hout⟩

/-! ## A sequence of samples as bits -/

/-- From inside a session the samples accumulate the bits of `pendingBits`, though the counter saturates: in an open
first half it need only agree with the count `n` up to 255, in an open second half not even that (R105). -/
theorem Decoder.samples_pendingBits {d : Decoder} (hprimed : d.primed = true) {n : Nat}
    (hn : d.firstPart = false → d.cnt.toNat = min 255 n) (xs : List Sample) :
    ((d.samples params xs).1.clearFlags, (d.samples params xs).2) =
      d.clearFlags.accumulateBits (pendingBits d.firstPart d.prev n (xs.map polarity)) := by
  induction xs generalizing d n with
  | nil => simp
  | cons x xs ih =>
    rw [Decoder.samples_cons, List.map_cons]
    obtain ⟨hprimed', hprev'⟩ := d.sample_polarity params (polarity x)
    by_cases hp : polarity x = d.prev
    · have hcount : d.firstPart = false → d.countSample.cnt.toNat = min 255 (n + 1) := fun h => by
        rw [Decoder.countSample, satInc8_toNat, hn h]; omega
      rw [Decoder.sample_of_same params hprimed hp, pendingBits_of_same hp]
      exact ih (d := d.countSample) hprimed hcount
    · obtain ⟨hcnt, htoggle⟩ := Decoder.sample_of_transition params hprimed hp
      cases hfirst : d.firstPart with
      | true =>
        have hrest := ih (n := 0) hprimed' fun _ => by rw [hcnt]; rfl
        rw [htoggle, hprev', hfirst] at hrest
        rw [pendingBits_of_second_half hp]
        rw [Decoder.sample_of_second_half params hprimed hp hfirst] at hrest ⊢
        exact hrest
      | false =>
        have hbit := scoreRun_params d.cnt (hn hfirst)
        obtain ⟨hclear, -, hout⟩ := Decoder.sample_of_scored_half rfl hprimed hfirst hp hbit
        have hrest := ih (n := 1) hprimed' fun h => by simp [htoggle, hfirst] at h
        rw [htoggle, hprev', hfirst, hclear, Bool.not_false] at hrest
        rw [pendingBits_of_first_half hp, Decoder.accumulateBits_cons, Decoder.clearFlags_accumulate, hout, ← hrest]

/-- The samples of a session accumulate the bits of every other closed run (R100, R103, R114). -/
theorem Decoder.samples_payloadBits (f : Format) (xs : List Sample) :
    (((Decoder.initial f).samples params xs).1.clearFlags, ((Decoder.initial f).samples params xs).2) =
      (Decoder.initial f).accumulateBits (payloadBits (xs.map polarity)) := by
  cases xs with
  | nil => rfl
  | cons x xs =>
    rw [Decoder.samples_cons, Decoder.sample_of_unprimed params _ rfl, List.map_cons, payloadBits_cons]
    exact Decoder.samples_pendingBits (d := (Decoder.initial f).prime (polarity x)) rfl (fun _ => rfl) xs

/-! ## The bits of a session as bytes -/

/-- Shifting `k` zeros into a New byte is a shift left by `k` (R108, R112). -/
theorem foldl_shiftIn_new_zeros (acc : Byte) (k : Nat) :
    (List.replicate k false).foldl (shiftIn .new) acc = acc <<< k := by
  induction k generalizing acc with
  | zero => simp
  | succ k ih => rw [List.replicate_succ, List.foldl_cons, ih, Nat.add_comm, BitVec.shiftLeft_add]; simp [shiftIn]

/-- Shifting `k` zeros into an Old byte is a shift right by `k` (R109, R112). -/
theorem foldl_shiftIn_old_zeros (acc : Byte) (k : Nat) :
    (List.replicate k false).foldl (shiftIn .old) acc = acc >>> k := by
  induction k generalizing acc with
  | zero => simp
  | succ k ih => rw [List.replicate_succ, List.foldl_cons, ih, Nat.add_comm, BitVec.shiftRight_add]; simp [shiftIn]

/-- The padding of the flush is the shifting in of zeros (R112). -/
theorem Decoder.paddedByte_eq_foldl (d : Decoder) :
    d.paddedByte = (List.replicate (8 - d.bitpos.toNat) false).foldl (shiftIn d.fmt) d.acc := by
  cases hfmt : d.fmt with
  | new => rw [foldl_shiftIn_new_zeros, Decoder.paddedByte, hfmt]
  | old => rw [foldl_shiftIn_old_zeros, Decoder.paddedByte, hfmt]

/-- Bits that leave the byte incomplete are shifted in and counted (R110). -/
theorem Decoder.accumulateBits_of_partial (d : Decoder) (bs : List Bool) (h : d.bitpos.toNat + bs.length ≤ 7) :
    (d.accumulateBits bs).1 =
      { d with acc := bs.foldl (shiftIn d.fmt) d.acc, bitpos := d.bitpos + BitVec.ofNat 3 bs.length } := by
  induction bs generalizing d with
  | nil => simp
  | cons b bs ih =>
    rw [List.length_cons] at h
    have hne : d.bitpos ≠ 7#3 := fun e => by simp [e] at h
    have hsucc : (d.bitpos + 1#3).toNat = d.bitpos.toNat + 1 :=
      BitVec.toNat_add_of_lt (by simp only [BitVec.toNat_ofNat]; omega)
    rw [Decoder.accumulateBits_cons, Decoder.accumulate_of_not_full hne, ih _ (by simp only [hsucc]; omega)]
    simp [BitVec.add_assoc, BitVec.ofNat_add, BitVec.add_comm (1#3)]

/-- The flush reads only the byte in progress (R111, R114). -/
theorem Decoder.flush_clearFlags (d : Decoder) : d.clearFlags.flush = d.flush := rfl

/-- The flush packs the bits of the byte in progress: padding them with zeros is shifting in zeros (R111 to R113). -/
theorem Decoder.flush_of_pending {d : Decoder} {part : List Bool} (hlt : part.length < 8)
    (hacc : d.acc = part.foldl (shiftIn d.fmt) 0x00#8) (hpos : d.bitpos.toNat = part.length) :
    d.flush.2 = packBits d.fmt part := by
  by_cases hnil : part = []
  · have hempty : d.bitpos = 0#3 := BitVec.eq_of_toNat_eq (by simp [hpos, hnil])
    rw [Decoder.flush_of_empty hempty, hnil]
    rfl
  · have hpartial : d.bitpos ≠ 0#3 := fun e => hnil (List.length_eq_zero_iff.mp (by simp [← hpos, e]))
    obtain ⟨b, hb⟩ := exists_bitsMsbFirst_eq_padded hlt
    rw [Decoder.flush_of_partial hpartial, packBits_of_partial d.fmt hnil hlt, byteOfBits_of_padded hb,
      Decoder.paddedByte_eq_foldl, hacc, hpos, ← List.foldl_append, ← hb, foldl_shiftIn_bitsMsbFirst]

/-- The bits of a session and the flush at its end give the packed bytes (R110 to R113). -/
theorem Decoder.accumulateBits_flush (f : Format) (bits : List Bool) :
    ((Decoder.initial f).accumulateBits bits).1.flush.1 = Decoder.initial f ∧
    ((Decoder.initial f).accumulateBits bits).2 ++ ((Decoder.initial f).accumulateBits bits).1.flush.2 =
      packBits f bits := by
  obtain ⟨bytes, part, rfl, hlt⟩ := exists_bytes_append_eq bits
  have hle : (Decoder.initial f).bitpos.toNat + part.length ≤ 7 := by simp; omega
  rw [Decoder.accumulateBits_append, Decoder.accumulateBits_bytes, Decoder.accumulateBits_of_partial _ _ hle,
    Decoder.accumulateBits_emits_nothing _ _ hle, List.append_nil, packBits_bytes_append]
  exact ⟨rfl, congrArg (_ ++ ·) (Decoder.flush_of_pending hlt rfl (by simpa using hlt))⟩

/-! ## A whole decode -/

/-- A whole decode is one write to D and DOUT: the header, then the packed bytes of the bits (R245). -/
theorem runCommands_decodeCommands (f : Format) (r : Mode) (xs : List Sample) (s : State) :
    runCommands (decodeCommands f r xs) s =
      .next (s.applyDec (Decoder.initial f, startHeader params f r ++ packBits f (payloadBits (xs.map polarity)))) := by
  obtain ⟨hstate, hbytes⟩ := Decoder.accumulateBits_flush f (payloadBits (xs.map polarity))
  rw [← Decoder.samples_payloadBits, Decoder.flush_clearFlags] at hstate hbytes
  rw [decodeCommands, runCommands_cons (exec_decStart f r s), runCommands_append (runCommands_decSamples xs _),
    runCommands_cons (exec_decFlush _), runCommands_nil, State.applyDec_applyDec, State.applyDec_applyDec]
  simp only [State.applyDec_dec]
  rw [hstate, hbytes]

end Sys2Proof.Machine
end

section
/-! PROOFS. The statements about the pulse decoder (40_pulse_decoder.md). -/

namespace Sys2Proof.Machine

/-- Settles O31: the samples accumulate the reference's bits, which the flush completes to the reference's
bytes. -/
theorem decodeIsRunLengthDecoding : Obligations.DecodeIsRunLengthDecoding := by
  intro f r xs s
  rw [runCommands_decodeCommands, List.append_assoc]
  rfl

/-- Settles O32: both sessions score the same bits, which pack to the same bytes, an Old one reversed. -/
theorem formatLaw : Obligations.FormatLaw := by
  intro xs r s
  obtain ⟨payload, hpack⟩ := Reference.exists_packBits_eq_map (Reference.payloadBits (xs.map polarity))
  refine ⟨payload, _, _, runCommands_decodeCommands .new r xs s, runCommands_decodeCommands .old r xs s, ?_, ?_⟩
  · have hnew : payload.map (receivedByte .new) = payload := List.map_id payload
    rw [State.applyDec_dout, hpack, hnew, List.append_assoc]
  · rw [State.applyDec_dout, hpack, List.append_assoc]
    rfl

/-- Settles O26, case by case of R102. -/
theorem decSampleRule : Obligations.DecSampleRule := by
  refine fun x s => ⟨encode_decSample x, fun hprimed => ?_, fun hprimed hp => ?_, fun hprimed hp hfirst => ?_,
    fun hprimed hp hfirst acc' hacc => ?_⟩
  · rw [exec_decSample, Decoder.sample_of_unprimed params _ hprimed, State.applyDec_silent]
    rfl
  · rw [exec_decSample, Decoder.sample_of_same params hprimed hp, State.applyDec_silent]
    rfl
  · rw [exec_decSample, Decoder.sample_of_second_half params hprimed hp hfirst, State.applyDec_silent, Decoder.toggle,
      hfirst]
    rfl
  · have hshift : shiftIn s.dec.fmt s.dec.acc (scoreRun params s.dec.cnt) = acc' := by
      rw [hacc]
      cases s.dec.fmt with
      | new => exact congrArg (_ ||| ·) (if_congr (scoreRun_params_iff _) rfl rfl)
      | old => exact congrArg (_ ||| ·) (if_congr (scoreRun_params_iff _) rfl rfl)
    rw [exec_decSample, Decoder.sample_of_first_half params hprimed hp hfirst]
    refine ⟨fun hfull => ?_, fun hfull => ?_⟩
    · rw [Decoder.accumulate_of_full hfull, hshift, Decoder.toggle, hfirst]
      rfl
    · rw [Decoder.accumulate_of_not_full hfull, hshift, Decoder.toggle, hfirst, State.applyDec_silent]
      rfl

/-- Settles O27: a run's first sample sets the counter, to 1 or to 0, and its other samples count. -/
theorem runCounterRule : Obligations.RunCounterRule := by
  intro s p x xs hrun
  obtain ⟨rfl, hxs⟩ := List.forall_mem_cons.mp hrun
  rw [runCommands_decSamples, Decoder.samples_run params s.dec x hxs]
  refine ⟨fun hprimed => ?_, fun hprimed hprev => ?_⟩
  · rw [Decoder.sample_of_unprimed params _ hprimed, State.applyDec_silent, List.length_cons, Nat.add_comm]
    rfl
  · have hp : polarity x ≠ s.dec.prev := by simp [hprev]
    obtain ⟨hcnt, -⟩ := Decoder.sample_of_transition params hprimed hp
    obtain ⟨hprimed', hprev'⟩ := s.dec.sample_polarity params (polarity x)
    refine ⟨_, rfl, hprimed', hprev', ?_⟩
    rw [State.applyDec_dec, hcnt, List.length_cons, Nat.add_sub_cancel]
    simp [countUp]

/-- Settles O28: the run leaves an open first half with `L` or `L - 1` samples counted, which the closing sample
scores. -/
theorem runLengthTable : Obligations.RunLengthTable := by
  intro s p x xs close hrun hclose
  obtain ⟨rfl, hxs⟩ := List.forall_mem_cons.mp hrun
  have hne : polarity close ≠ polarity x := by simp [hclose]
  have hsamples := Decoder.samples_run params s.dec x hxs
  refine ⟨fun hprimed hfirst => ?_, fun hprimed hprev hfirst => ?_⟩
  · rw [Decoder.sample_of_unprimed params _ hprimed] at hsamples
    have hbit := scoreRun_params (countUp 1#8 xs.length) (n := (x :: xs).length) (by simp [Nat.add_comm])
    exact runCommands_scored_run hsamples rfl rfl hfirst hne hbit
  · rw [Decoder.sample_of_second_half params hprimed (by simp [hprev]) hfirst] at hsamples
    have hbit := scoreRun_params (countUp 0#8 xs.length) (n := xs.length) (by simp)
    have hlater : decide (11 ≤ xs.length) = decide (12 ≤ (x :: xs).length) := by simp
    exact runCommands_scored_run hsamples rfl hprimed (by simp [hfirst]) hne (hbit.trans hlater)

/-- Settles O24, for each format and mode. -/
theorem decStartRule : Obligations.DecStartRule := by
  refine fun f r s => ⟨?_, ?_⟩
  · cases f <;> cases r <;> rfl
  · cases r with
    | raw => rfl
    | image => cases f <;> rfl

/-- Settles O25, in numbers and in bits. -/
theorem polarityIsTheSignTest : Obligations.PolarityIsTheSignTest :=
  fun x => ⟨decide_eq_true_iff, polarity_iff_bits x⟩

/-- Settles O29: with no bit pending, and with a partial byte. -/
theorem decFlushRule : Obligations.DecFlushRule := by
  refine ⟨rfl, fun s => ?_⟩
  by_cases hpos : s.dec.bitpos = 0#3
  · have hflush : s.dec.flush = (Decoder.initial s.dec.fmt, []) := Prod.ext rfl (Decoder.flush_of_empty hpos)
    rw [exec_decFlush, hflush, State.applyDec_silent, if_pos hpos, List.append_nil]
    rfl
  · have hflush : s.dec.flush = (Decoder.initial s.dec.fmt, [s.dec.paddedByte]) :=
      Prod.ext rfl (Decoder.flush_of_partial hpos)
    rw [exec_decFlush, hflush, if_neg hpos, Decoder.paddedByte]
    cases s.dec.fmt <;> rfl

end Sys2Proof.Machine
end

section
/-! SUPPORT. Sessions of PENC (41_pulse_encoder.md): the length of a waveform (R147), a whole encode as one write to E
and SOUT (R141, R145, R148), and a whole decode of the waveform of a payload (R150). -/

namespace Sys2Proof.Machine

open Reference

/-! ## The length of a waveform -/

/-- The bits the encoder sends for a byte have as many ones as the byte (R144). -/
theorem bitsMsbFirst_count_true (b : Byte) : (bitsMsbFirst b).count true = popcount b := by
  have hbits : bitsMsbFirst b = (List.range 8).reverse.map (b.getLsbD ·) := rfl
  rw [hbits, List.count, List.countP_map, List.countP_reverse, popcount]
  simp [Function.comp_def]

/-- Each bit adds two halves of its width (R143). -/
theorem flatMap_bitCycle_length (c : Config) (bits : List Bool) :
    (bits.flatMap (bitCycle c)).length = 2 * (c.zeroW * bits.count false + c.oneW * bits.count true) := by
  induction bits with
  | nil => rfl
  | cons bit bits ih =>
    rw [List.flatMap_cons, List.length_append, ih, bitCycle_length]
    cases bit with
    | false => simp [halfWidth]; ring
    | true => simp [halfWidth]; ring

/-- The number of samples of an encoded byte (R147). -/
theorem byteWave_length (c : Config) (b : Byte) :
    (byteWave c b).length = 2 * (c.zeroW * (8 - popcount b) + c.oneW * popcount b) := by
  have hbits : (bitsMsbFirst b).count false + (bitsMsbFirst b).count true = 8 := List.count_not_add_count _ true
  rw [bitsMsbFirst_count_true] at hbits
  rw [byteWave, flatMap_bitCycle_length, bitsMsbFirst_count_true, ← hbits, Nat.add_sub_cancel]

theorem popcount_le (b : Byte) : popcount b ≤ 8 := List.countP_le_length

/-! ## A whole encode -/

/-- A PENC result that emits nothing writes E alone. -/
theorem State.applyEnc_silent (s : State) (e : Encoder) : s.applyEnc (e, []) = { s with enc := e } := by
  simp [State.applyEnc, State.setEnc, State.emitSout]

/-- A raw session encodes every byte (R148). -/
theorem Encoder.bytes_start_raw (c : Config) (bs : List Byte) :
    (Encoder.start .raw).bytes c bs = ({ skip := 0#1 }, bs.flatMap (byteWave c)) :=
  Encoder.bytes_of_no_skip c rfl bs

/-- An image session drops its first byte, whatever its value, and encodes every later one (R148). -/
theorem Encoder.bytes_start_image (c : Config) (b : Byte) (bs : List Byte) :
    (Encoder.start .image).bytes c (b :: bs) = ({ skip := 0#1 }, bs.flatMap (byteWave c)) := by
  have hdrop : (Encoder.start .image).byte c b = ({ skip := 0#1 }, []) := Encoder.byte_of_skip c (by decide) b
  rw [Encoder.bytes_cons, hdrop]
  exact Encoder.bytes_start_raw c bs

/-- A whole encode is one write to E and SOUT (R245). -/
theorem runCommands_encodeCommands (r : Mode) (bs : List Byte) (s : State) :
    runCommands (encodeCommands r bs) s = .next (s.applyEnc ((Encoder.start r).bytes params bs)) := by
  rw [encodeCommands, runCommands_cons (exec_encStart r s), runCommands_encBytes, State.applyEnc_applyEnc]
  rfl

/-! ## A whole decode of a waveform -/

/-- The packed bytes of a session's bits are what its samples and the flush emit (R100, R111). -/
theorem packBits_payloadBits (f : Format) (xs : List Sample) :
    packBits f (payloadBits (xs.map polarity)) =
      ((Decoder.initial f).samples params xs).2 ++ ((Decoder.initial f).samples params xs).1.flush.2 := by
  obtain ⟨-, hbytes⟩ := Decoder.accumulateBits_flush f (payloadBits (xs.map polarity))
  rw [← Decoder.samples_payloadBits, Decoder.flush_clearFlags] at hbytes
  exact hbytes.symm

/-- A New session assembles every byte as the encoder took it (R58, R144). -/
@[simp] theorem map_receivedByte_new (payload : List Byte) : payload.map (receivedByte .new) = payload :=
  List.map_id payload

/-- A decode of a payload's waveform emits the header and the payload as an `f` session assembles it, from any state
(R150). -/
theorem runCommands_decode_payload_wave (f : Format) (r : Mode) (payload : List Byte) (u : State) :
    ∃ t, runCommands (decodeCommands f r (payload.flatMap (byteWave params))) u = .next t ∧
      t.dout = u.dout ++ (startHeader params f r ++ payload.map (receivedByte f)) := by
  obtain ⟨hbytes, hflush⟩ := Decoder.decode_payload_wave parametersMeetTheConstraints f payload
  refine ⟨_, runCommands_decodeCommands f r _ u, ?_⟩
  rw [State.applyDec_dout, packBits_payloadBits, hbytes, hflush, List.append_nil]

end Sys2Proof.Machine
end

section
/-! PROOFS. The statements about the pulse encoder (41_pulse_encoder.md). -/

namespace Sys2Proof.Machine

/-- Settles O37: both encodes emit the payload's waveform, which each kind of session decodes to its header and the
payload in its bit order. -/
theorem roundTripLaw : Obligations.RoundTripLaw := by
  intro payload s
  refine ⟨payload.flatMap (byteWave params), _, runCommands_encodeCommands .raw payload s, ?_,
    ⟨_, runCommands_encodeCommands .image _ s, ?_⟩, fun u => ⟨?_, ?_, ?_⟩⟩
  · rw [State.applyEnc_sout, Encoder.bytes_start_raw]
  · rw [State.applyEnc_sout, Encoder.bytes_start_image]
  · simpa using runCommands_decode_payload_wave .new .raw payload u
  · simpa using runCommands_decode_payload_wave .new .image payload u
  · exact runCommands_decode_payload_wave .old .raw payload u

/-- Settles O35, for an encoded byte and for a dropped one. -/
theorem encByteSampleCount : Obligations.EncByteSampleCount := by
  refine fun b s => ⟨_, exec_encByte b s, fun hskip => ?_, fun hskip => ?_⟩
  · have hle := popcount_le b
    rw [State.applyEnc_sout, Encoder.byte_of_no_skip params hskip, List.length_append, byteWave_length, params_zeroW,
      params_oneW]
    exact ⟨rfl, by omega⟩
  · rw [State.applyEnc_sout, Encoder.byte_of_skip params hskip, List.append_nil]

/-- Settles O36: in each mode, and in image mode for the empty image and for any other. -/
theorem encodeDropsOnlyTheSync : Obligations.EncodeDropsOnlyTheSync := by
  refine fun bs s => ⟨?_, ?_⟩
  · rw [runCommands_encodeCommands, Encoder.bytes_start_raw]
    rfl
  · rw [runCommands_encodeCommands]
    cases bs with
    | nil => rfl
    | cons b bs =>
      rw [Encoder.bytes_start_image]
      rfl

/-- Settles O33, for each mode. -/
theorem encStartRule : Obligations.EncStartRule := by
  intro r s
  rw [exec_encStart, State.applyEnc_silent]
  cases r <;> exact ⟨rfl, rfl⟩

/-- Settles O34, for a byte to skip and for a byte to encode. -/
theorem encByteRule : Obligations.EncByteRule := by
  refine fun b s => ⟨encode_encByte b, fun hskip => ?_, fun hskip => ?_⟩
  · rw [exec_encByte, Encoder.byte_of_skip params hskip, State.applyEnc_silent]
  · rw [exec_encByte, Encoder.byte_of_no_skip params hskip, byteWave, bitsMsbFirst, List.flatMap_map]
    rfl

end Sys2Proof.Machine
end

section
/-! SUPPORT. The bit-reversal and its three swap stages (42_bit_order_transcoder.md R170 to R172), and sessions of PTRC:
a whole transcode as one write to T and TOUT (R175 to R177, R245), and a transcode there and back (R181). -/

namespace Sys2Proof.Machine

/-! ## The bit-reversal -/

/-- Each bit goes to place `7 - i` and back (R172). -/
@[simp] theorem brev_brev (b : Byte) : brev (brev b) = b := by
  refine BitVec.eq_of_getLsbD_eq fun i hi => ?_
  rw [brev_getLsbD _ hi, brev_getLsbD _ (by omega), Nat.sub_sub_self (by omega)]

/-- The fixed points are the palindromic bytes (R172). -/
theorem brev_eq_self_iff (b : Byte) : brev b = b ↔ ∀ i < 8, b.getLsbD i = b.getLsbD (7 - i) := by
  rw [BitVec.eq_of_getLsbD_eq_iff]
  exact forall₂_congr fun i hi => by rw [brev_getLsbD b hi, eq_comm]

theorem map_brev_map_brev (bs : List Byte) : (bs.map brev).map brev = bs := by
  simp [Function.comp_def]

/-! ### The swap stages: each flips one bit of the position of every bit (R171) -/

theorem getLsbD_nibbleSwap (b : Byte) {i : Nat} (hi : i < 8) :
    ((b >>> 4) ||| (b <<< 4)).getLsbD i = b.getLsbD (i ^^^ 4) := by
  interval_cases i <;> simp

theorem getLsbD_pairSwap (b : Byte) {i : Nat} (hi : i < 8) :
    (((b &&& 0xCC#8) >>> 2) ||| ((b &&& 0x33#8) <<< 2)).getLsbD i = b.getLsbD (i ^^^ 2) := by
  interval_cases i <;> simp

theorem getLsbD_bitSwap (b : Byte) {i : Nat} (hi : i < 8) :
    (((b &&& 0xAA#8) >>> 1) ||| ((b &&& 0x55#8) <<< 1)).getLsbD i = b.getLsbD (i ^^^ 1) := by
  interval_cases i <;> simp

/-- The three flips together reverse the positions. -/
theorem xor_one_two_four {i : Nat} (hi : i < 8) : i ^^^ 1 ^^^ 2 ^^^ 4 = 7 - i := by
  interval_cases i <;> rfl

/-! ## A whole transcode -/

/-- A PTRC result that emits nothing writes T alone. -/
theorem State.applyTrc_silent (s : State) (t : Transcoder) : s.applyTrc (t, []) = { s with trc := t } := by
  simp [State.applyTrc, State.setTrc, State.emitTout]

/-- A raw session emits every byte bit-reversed (R177). -/
theorem Transcoder.bytes_start_raw (c : Config) (f : Format) (bs : List Byte) :
    (Transcoder.start c f .raw).bytes bs = ({ skip := 0#9 }, bs.map brev) := by
  rw [Transcoder.bytes_eq]
  simp [Transcoder.start]

/-- The skip count of an image session starts at the source header's length: it fits in nine bits (R26, R173). -/
theorem Transcoder.start_image_skip_toNat (f : Format) :
    (Transcoder.start params f .image).skip.toNat = hdrlen params f := by
  cases f <;> rfl

/-- An image session drops the source header and emits every later byte bit-reversed (R175, R176, R179). -/
theorem Transcoder.bytes_start_image (f : Format) (bs : List Byte) :
    (Transcoder.start params f .image).bytes bs =
      ({ skip := BitVec.ofNat 9 (hdrlen params f - bs.length) }, (bs.drop (hdrlen params f)).map brev) := by
  rw [Transcoder.bytes_eq, Transcoder.start_image_skip_toNat]

/-- A whole transcode is one write to T and TOUT: the target header, then what the bytes emit (R245). -/
theorem runCommands_transcodeCommands (f : Format) (r : Mode) (bs : List Byte) (s : State) :
    runCommands (transcodeCommands f r bs) s =
      .next (s.applyTrc (((Transcoder.start params f r).bytes bs).1,
        startHeader params (otherFormat f) r ++ ((Transcoder.start params f r).bytes bs).2)) := by
  rw [transcodeCommands, runCommands_cons (exec_trcStart f r s), runCommands_trcBytes, State.applyTrc_applyTrc]
  rfl

/-- The image a transcode produces from one of format `f`: the target header, then the payload bit-reversed
(R175, R176). -/
def transcodedImage (f : Format) (image : List Byte) : List Byte :=
  header params (otherFormat f) ++ (image.drop (hdrlen params f)).map brev

/-- A transcode of an image: T and TOUT after it. A short image leaves the rest of its header to skip (R179). -/
theorem runCommands_transcode_image (f : Format) (image : List Byte) (s : State) :
    runCommands (transcodeCommands f .image image) s = .next { s with
      trc := { skip := BitVec.ofNat 9 (hdrlen params f - image.length) }
      tout := s.tout ++ transcodedImage f image } := by
  rw [runCommands_transcodeCommands, Transcoder.bytes_start_image]
  rfl

/-- Its payload starts behind the target header (R57). -/
theorem drop_transcodedImage (f : Format) (image : List Byte) :
    (transcodedImage f image).drop (hdrlen params (otherFormat f)) = (image.drop (hdrlen params f)).map brev := by
  rw [← header_length, transcodedImage, List.drop_left]

@[simp] theorem otherFormat_otherFormat (f : Format) : otherFormat (otherFormat f) = f := by
  cases f <;> rfl

/-- There and back, the header is the fixed one and the payload is kept, `brev` being an involution (R181). -/
theorem transcodedImage_transcodedImage (f : Format) (image : List Byte) :
    transcodedImage (otherFormat f) (transcodedImage f image) = header params f ++ image.drop (hdrlen params f) := by
  rw [transcodedImage, drop_transcodedImage, map_brev_map_brev, otherFormat_otherFormat]

end Sys2Proof.Machine
end

section
/-! PROOFS. The statements about the bit-order transcoder (42_bit_order_transcoder.md). -/

namespace Sys2Proof.Machine

open Reference

/-- Settles O46, from the two image sessions and the raw one. -/
theorem transcodeOfAnImage : Obligations.TranscodeOfAnImage := by
  refine fun image s => ⟨runCommands_transcode_image .old image s, runCommands_transcode_image .new image s,
    fun f => ?_⟩
  rw [runCommands_transcodeCommands, Transcoder.bytes_start_raw]
  rfl

/-- Settles O47: each way the second image is the fixed header and the first image's payload. -/
theorem transcodeRoundTrip : Obligations.TranscodeRoundTrip := by
  refine ⟨fun image s u _ => ?_, fun image s u _ => ?_⟩
  · refine ⟨transcodedImage .old image, transcodedImage .new (transcodedImage .old image), _, _,
      runCommands_transcode_image .old image s, rfl, runCommands_transcode_image .new _ u, rfl, ?_⟩
    have hk : transcodedImage .new (transcodedImage .old image) = oldHeader ++ image.drop 360 :=
      transcodedImage_transcodedImage .old image
    rw [hk]
    exact ⟨List.drop_left' oldHeader_length, List.take_left' oldHeader_length⟩
  · exact ⟨transcodedImage .new image, transcodedImage .old (transcodedImage .new image), _, _,
      runCommands_transcode_image .new image s, rfl, runCommands_transcode_image .old _ u, rfl,
      transcodedImage_transcodedImage .new image⟩

/-- Settles O41, bit by bit. -/
theorem brevReversesBits : Obligations.BrevReversesBits := fun b _ hi => brev_getLsbD b hi

/-- Settles O42: the involution, its fixed points and their number, and the source's values. -/
theorem brevIsAnInvolution : Obligations.BrevIsAnInvolution :=
  ⟨brev_brev, brev_eq_self_iff, by decide, by decide, by decide, by decide⟩

/-- Settles O43: the stages flip the position's bits 4, 2 and 1, which together take `i` to `7 - i`. -/
theorem brevIsThreeSwapStages : Obligations.BrevIsThreeSwapStages := by
  rintro b t1 t2 rfl rfl
  refine BitVec.eq_of_getLsbD_eq fun i hi => ?_
  have h1 : i ^^^ 1 < 8 := Nat.xor_lt_two_pow (n := 3) hi (by decide)
  have h2 : i ^^^ 1 ^^^ 2 < 8 := Nat.xor_lt_two_pow (n := 3) h1 (by decide)
  rw [brev_getLsbD b hi, getLsbD_bitSwap _ hi, getLsbD_pairSwap _ h1, getLsbD_nibbleSwap _ h2, xor_one_two_four hi]

/-- Settles O44, for each format and mode. -/
theorem trcStartRule : Obligations.TrcStartRule := by
  refine fun f r s => ⟨?_, ?_⟩
  · cases f <;> cases r <;> rfl
  · rw [exec_trcStart]
    cases r with
    | raw => rfl
    | image => cases f <;> rfl

/-- Settles O45, for a byte to skip and for a byte to emit. -/
theorem trcByteRule : Obligations.TrcByteRule := by
  refine fun b s => ⟨encode_trcByte b, fun hskip => ?_, fun hskip => ?_⟩
  · rw [exec_trcByte, Transcoder.byte_of_skip hskip, State.applyTrc_silent]
  · rw [exec_trcByte, Transcoder.byte_of_no_skip hskip]
    rfl

/-- Settles O48: both commands emit the header of the format they produce. -/
theorem producedHeaderShape : Obligations.ProducedHeaderShape :=
  fun s => ⟨⟨oldHeader, _, _, oldHeader_length, rfl, fun _ => List.eq_of_mem_replicate,
      exec_decStart .old .image s, rfl, exec_trcStart .new .image s, rfl⟩,
    ⟨_, _, exec_decStart .new .image s, rfl, exec_trcStart .old .image s, rfl⟩⟩

end Sys2Proof.Machine
end

section
/-! SUPPORT. The decoder's answers on a word with `OP` zero (30_encoding.md R87). -/

namespace Sys2Proof

/-- With `OP` zero, R87 has two answers: NOP, or ILL_FIELD from the check of `RSV` or from that of `MOD` and `DATA`. -/
theorem decodeFields_of_op_zero {x : Fields} (hop : x.op = 0#4) :
    decodeFields x = .legal .nop ∨ decodeFields x = .illegal .illField := by
  by_cases hrsv : x.rsv = 0#8
  · by_cases hoperand : x.mod ≠ 0#4 ∨ x.data ≠ 0#16
    · exact .inr (by simp [decodeFields, hop, hrsv, hoperand])
    · exact .inl (by simp [decodeFields, hop, hrsv, hoperand])
  · exact .inr (by simp [decodeFields, hop, hrsv])

end Sys2Proof
end

section
/-! PROOFS. The statement about NOP (43_control.md). -/

namespace Sys2Proof.Machine

/-- Settles O23: a legal word is the encoded word of its command, so no other word with `OP` zero decodes to NOP. -/
theorem nopRule : Obligations.NopRule :=
  ⟨rfl, exec_nop, fun _ hop hne =>
    (decodeFields_of_op_zero hop).resolve_left fun hnop => hne (encode_of_decode hnop).symm⟩

end Sys2Proof.Machine
end

section
/-! SUPPORT. The checks of R87 in order (60_exceptions.md R214): what the decoder answers at the first that fails, and
each check over the word under a mask (30_encoding.md R83 to R86). -/

namespace Sys2Proof

open Reference

/-! ## The decoder at each check -/

theorem op_eq_of_lt {op : BitVec 4} (h : op < 8#4) :
    op = 0#4 ∨ op = 1#4 ∨ op = 2#4 ∨ op = 3#4 ∨ op = 4#4 ∨ op = 5#4 ∨ op = 6#4 ∨ op = 7#4 := by
  revert op; decide

/-- `RSV` and the must-be-zero bits of `MOD` and `DATA` are zero (R83 to R86). -/
def Fields.ReservedZero (x : Fields) : Prop := x.rsv = 0#8 ∧ x.modOk = true ∧ x.dataOk = true

section
variable {x : Fields}

theorem Fields.fmtOk_eq_false_iff : x.fmtOk = false ↔ x.op = 4#4 ∧ x.mod.getLsbD 0 = true := by
  simp [Fields.fmtOk]

/-- With `OP` not defined nothing else is looked at. -/
theorem decodeFields_of_undefined (h : 8#4 ≤ x.op) : decodeFields x = .illegal .illOp := if_pos h

/-- With `OP` defined, a bit of the second check that is not zero gives ILL_FIELD: `RSV` before the operation is looked
at, and in each operation its guard on `MOD` and `DATA` is the check of those bits. -/
theorem decodeFields_of_not_reservedZero (hop : x.op < 8#4) (h : ¬ x.ReservedZero) :
    decodeFields x = .illegal .illField := by
  obtain ⟨op, mod, rsv, data⟩ := x
  by_cases hrsv : rsv = 0#8
  · rcases op_eq_of_lt hop with rfl | rfl | rfl | rfl | rfl | rfl | rfl | rfl <;>
      simp_all [Fields.ReservedZero, Fields.modOk, Fields.dataOk, Fields.isStart, Fields.isByte, decodeFields]
  · have hdefined : ¬ 8#4 ≤ op := BitVec.not_le.mpr hop
    simp [decodeFields, hdefined, hrsv]

/-- Past the second check ENC_START has a third: the format check (R86). -/
theorem decodeFields_of_not_fmtOk (h : x.ReservedZero) (hfmt : x.fmtOk = false) :
    decodeFields x = .illegal .illFmt := by
  obtain ⟨op, mod, rsv, data⟩ := x
  obtain ⟨rfl, hmod, hdata⟩ := h
  obtain ⟨rfl, hbit⟩ := Fields.fmtOk_eq_false_iff.mp hfmt
  simp_all [Fields.modOk, Fields.dataOk, Fields.isStart, Fields.isByte, decodeFields]

/-- A word that passes every check is legal: in each operation the guard lets it through, and only ENC_START asks for
the third check. -/
theorem decodeFields_of_checks (hop : x.op < 8#4) (h : x.ReservedZero) (hfmt : x.fmtOk = true) :
    ∃ i, decodeFields x = .legal i := by
  obtain ⟨op, mod, rsv, data⟩ := x
  obtain ⟨rfl, hmod, hdata⟩ := h
  rcases op_eq_of_lt hop with rfl | rfl | rfl | rfl | rfl | rfl | rfl | rfl <;>
    simp_all [Fields.modOk, Fields.dataOk, Fields.isStart, Fields.isByte, Fields.fmtOk, decodeFields]

/-- The cause of an illegal word: the cases are the first check that fails, and no check failing. -/
theorem decodeFields_eq_illegal_iff (x : Fields) (c : Cause) :
    decodeFields x = .illegal c ↔
      (c = .illOp ∧ 8#4 ≤ x.op) ∨ (c = .illField ∧ x.op < 8#4 ∧ ¬ x.ReservedZero) ∨
      (c = .illFmt ∧ x.op < 8#4 ∧ x.ReservedZero ∧ x.fmtOk = false) := by
  by_cases hop : x.op < 8#4
  · have hdefined : ¬ 8#4 ≤ x.op := BitVec.not_le.mpr hop
    by_cases hzero : x.ReservedZero
    · cases hfmt : x.fmtOk with
      | true =>
        obtain ⟨i, hi⟩ := decodeFields_of_checks hop hzero hfmt
        simp [hi, hdefined, hzero]
      | false => simp [decodeFields_of_not_fmtOk hzero hfmt, hop, hdefined, hzero, eq_comm (a := c)]
    · simp [decodeFields_of_not_reservedZero hop hzero, hop, hdefined, hzero, eq_comm (a := c)]
  · have hundefined : 8#4 ≤ x.op := BitVec.not_lt.mp hop
    simp [decodeFields_of_undefined hundefined, hop, hundefined, eq_comm (a := c)]

end

/-! ## The second check over the word -/

/-- A word masked to zero is masked to zero field by field. -/
theorem and_wordOf_eq_zero_iff (w : Word) (v : Fields) :
    w &&& wordOf v = 0#32 ↔
      (fieldsOf w).op &&& v.op = 0#4 ∧ (fieldsOf w).mod &&& v.mod = 0#4 ∧
      (fieldsOf w).rsv &&& v.rsv = 0#8 ∧ (fieldsOf w).data &&& v.data = 0#16 := by
  have hzero : fieldsOf 0#32 = ⟨0#4, 0#4, 0#8, 0#16⟩ := by decide
  have hfields := fieldsOf_and w (wordOf v)
  rw [fieldsOf_wordOf] at hfields
  constructor
  · intro h
    rw [h, hzero] at hfields
    exact Fields.mk.inj hfields.symm
  · rintro ⟨hop, hmod, hrsv, hdata⟩
    exact fieldsOf_injective (by rw [hfields, hop, hmod, hrsv, hdata, hzero])

/-- The must-be-zero bits of `MOD`: `MOD[3:2]` in the start form, all of it else (R85, R86). -/
def Fields.mbzMod (x : Fields) : BitVec 4 := if x.isStart then 0xC#4 else .allOnes 4

/-- The must-be-zero bits of `DATA`: none of DEC_SAMPLE, `DATA[15:8]` of the byte form, all of it else (R84). -/
def Fields.mbzData (x : Fields) : BitVec 16 :=
  if x.op == 2#4 then 0#16 else if x.isByte then 0xFF00#16 else .allOnes 16

theorem mbzMask_eq_wordOf (x : Fields) : mbzMask x.op.toNat = wordOf ⟨0#4, x.mbzMod, 0#8, x.mbzData⟩ := by
  have hmask : ∀ op : BitVec 4, mbzMask op.toNat =
      wordOf ⟨0#4, Fields.mbzMod ⟨op, 0#4, 0#8, 0#16⟩, 0#8, Fields.mbzData ⟨op, 0#4, 0#8, 0#16⟩⟩ := by decide
  exact hmask x.op

theorem Fields.modOk_iff (x : Fields) : x.modOk = true ↔ x.mod &&& x.mbzMod = 0#4 := by
  have hstart : ∀ m : BitVec 4, m.extractLsb' 2 2 = 0#2 ↔ m &&& 0xC#4 = 0#4 := by decide
  cases h : x.isStart with
  | true => simp [Fields.modOk, Fields.mbzMod, h, hstart]
  | false => simp [Fields.modOk, Fields.mbzMod, h, -BitVec.reduceAllOnes]

theorem byteData_high_eq_zero_iff (v : BitVec 16) : v.extractLsb' 8 8 = 0#8 ↔ v &&& 0xFF00#16 = 0#16 := by
  constructor
  · intro h
    rw [← byteData_of_high v h]
    exact byteData_and_mask _
  · intro h
    rw [byteData_of_mask v h]
    exact byteData_high _

theorem Fields.dataOk_iff (x : Fields) : x.dataOk = true ↔ x.data &&& x.mbzData = 0#16 := by
  by_cases hsample : x.op = 2#4
  · simp [Fields.dataOk, Fields.mbzData, hsample]
  · cases h : x.isByte with
    | true => simp [Fields.dataOk, Fields.mbzData, hsample, h, byteData_high_eq_zero_iff]
    | false => simp [Fields.dataOk, Fields.mbzData, hsample, h, -BitVec.reduceAllOnes]

/-- The second check of R87 as the two masks over the word. -/
theorem reservedZero_fieldsOf_iff (w : Word) :
    (fieldsOf w).ReservedZero ↔ w &&& 0x00FF0000#32 = 0#32 ∧ w &&& mbzMask (fieldsOf w).op.toNat = 0#32 := by
  have hrsv : w &&& 0x00FF0000#32 = 0#32 ↔ (fieldsOf w).rsv = 0#8 := by
    have hmask : 0x00FF0000#32 = wordOf ⟨0#4, 0#4, .allOnes 8, 0#16⟩ := rfl
    rw [hmask, and_wordOf_eq_zero_iff]
    simp [-BitVec.reduceAllOnes]
  rw [hrsv, mbzMask_eq_wordOf, and_wordOf_eq_zero_iff]
  simp [Fields.ReservedZero, Fields.modOk_iff, Fields.dataOk_iff]

/-- The third check over the word: it is made of ENC_START alone. -/
theorem fmt_check_fails_iff (w : Word) :
    (fieldsOf w).op < 8#4 ∧ (fieldsOf w).ReservedZero ∧ (fieldsOf w).fmtOk = false ↔
      (fieldsOf w).op = 4#4 ∧ w &&& 0x00FF0000#32 = 0#32 ∧ w &&& mbzMask 4 = 0#32 ∧ w.getLsbD 24 = true := by
  rw [Fields.fmtOk_eq_false_iff, reservedZero_fieldsOf_iff, mod_getLsbD_zero]
  by_cases hop : (fieldsOf w).op = 4#4
  · simp [hop, and_assoc]
  · simp [hop]

end Sys2Proof
end

section
/-! SUPPORT. Illegal and legal commands, commands and S, and what every step answers (60_exceptions.md R215 to R228);
the status registers as faithful images of their units (10_state.md R29 to R35). -/

namespace Sys2Proof.Machine

/-! ## Steps -/

/-- With no event waiting nothing changes (R228). -/
theorem step_of_no_input {s : State} (h : s.input = []) : step s = .next s := by
  simp [step, h]

/-- An illegal word at the port is the error action (R211). -/
theorem step_of_illegal {s : State} {w : Word} {c : Cause} {rest : List PortEvent} (hin : s.input = .command w :: rest)
    (hw : decode w = .illegal c) : step s = .next (raiseIllegal c w (s.setInput rest)) := by
  rw [step_of_input hin, takeEvent, acceptCommand, hw]

/-- Every command completes and keeps S and the events that wait: it writes to its unit's state and channel alone. -/
theorem exec_keeps_err_input (i : Instr) (s : State) : ∃ t, exec i s = .next t ∧ t.input = s.input ∧ t.err = s.err := by
  rcases exec_cases i s with ⟨-, h⟩ | ⟨-, r, h⟩ | ⟨-, r, h⟩ | ⟨-, r, h⟩
  · exact ⟨_, h, rfl, rfl⟩
  · exact ⟨_, h, rfl, rfl⟩
  · exact ⟨_, h, rfl, rfl⟩
  · exact ⟨_, h, rfl, rfl⟩

/-- Every list of commands completes and keeps S and the events that wait. -/
theorem runCommands_keeps_err_input (is : List Instr) (s : State) :
    ∃ t, runCommands is s = .next t ∧ t.input = s.input ∧ t.err = s.err := by
  induction is generalizing s with
  | nil => exact ⟨s, rfl, rfl, rfl⟩
  | cons i is ih =>
    obtain ⟨t, ht, htinput, hterr⟩ := exec_keeps_err_input i s
    obtain ⟨u, hu, huinput, huerr⟩ := ih t
    exact ⟨u, (runCommands_cons ht).trans hu, huinput.trans htinput, huerr.trans hterr⟩

/-- A command that goes to no unit changes nothing. -/
theorem exec_noUnit {i : Instr} (h : i.unit = .noUnit) (s : State) : exec i s = .next s := by
  rcases exec_cases i s with ⟨-, hs⟩ | ⟨hi, -⟩ | ⟨hi, -⟩ | ⟨hi, -⟩
  · exact hs
  · cases h.symm.trans hi
  · cases h.symm.trans hi
  · cases h.symm.trans hi

/-- No command reads S: whichever unit it goes to, its result is a function of that unit's state. -/
theorem exec_setErr {i : Instr} {s t : State} (h : exec i s = .next t) (e : ErrorState) :
    exec i (s.setErr e) = .next (t.setErr e) := by
  cases hi : i.unit with
  | noUnit =>
    cases (exec_noUnit hi s).symm.trans h
    exact exec_noUnit hi _
  | pdec =>
    obtain ⟨g, hg⟩ := exec_pdec hi
    cases (hg s).symm.trans h
    exact hg _
  | penc =>
    obtain ⟨g, hg⟩ := exec_penc hi
    cases (hg s).symm.trans h
    exact hg _
  | ptrc =>
    obtain ⟨g, hg⟩ := exec_ptrc hi
    cases (hg s).symm.trans h
    exact hg _

/-! ## The status registers -/

/-- STATUS shows the flag and the cause, ILLCMD the word. -/
theorem ErrorState.eq_of_registers {e e' : ErrorState} (hstatus : statusReg e = statusReg e')
    (hillcmd : illcmdReg e = illcmdReg e') : e = e' := by
  obtain ⟨hill, hcause, -⟩ := statusReg_layout e
  obtain ⟨hill', hcause', -⟩ := statusReg_layout e'
  rw [hstatus] at hill hcause
  have hc : e.cause = e'.cause := Cause.code_injective (hcause.symm.trans hcause')
  have hi : e.ill = e'.ill := hill.symm.trans hill'
  cases e
  cases e'
  exact (ErrorState.mk.injEq ..).mpr ⟨hi, hc, hillcmd⟩

theorem decstatReg_injective {d d' : Decoder} (h : decstatReg d = decstatReg d') : d = d' := by
  obtain ⟨hfmt, hprimed, hprev, hfirst, hbitpos, -, hacc, hcnt, -⟩ := decstatReg_layout d
  obtain ⟨hfmt', hprimed', hprev', hfirst', hbitpos', -, hacc', hcnt', -⟩ := decstatReg_layout d'
  rw [h] at hfmt hprimed hprev hfirst hbitpos hacc hcnt
  have hf : d.fmt = d'.fmt := Function.LeftInverse.injective Format.ofBit_toBit (hfmt.symm.trans hfmt')
  cases d
  cases d'
  exact (Decoder.mk.injEq ..).mpr ⟨hf, hprimed.symm.trans hprimed', hprev.symm.trans hprev', hcnt.symm.trans hcnt',
    hfirst.symm.trans hfirst', hacc.symm.trans hacc', hbitpos.symm.trans hbitpos'⟩

theorem encstatReg_injective {e e' : Encoder} (h : encstatReg e = encstatReg e') : e = e' := by
  obtain ⟨hskip, -⟩ := encstatReg_layout e
  rw [h, (encstatReg_layout e').1] at hskip
  exact congrArg Encoder.mk hskip.symm

theorem trcstatReg_injective {t t' : Transcoder} (h : trcstatReg t = trcstatReg t') : t = t' := by
  obtain ⟨hskip, -⟩ := trcstatReg_layout t
  rw [h, (trcstatReg_layout t').1] at hskip
  exact congrArg Transcoder.mk hskip.symm

end Sys2Proof.Machine
end

section
/-! PROOFS. The statements about errors and what goes on after them (60_exceptions.md). -/

namespace Sys2Proof.Machine

/-- Settles O4: the decoder's checks in R214's order, the second and third read as masks over the word. -/
theorem illegalCauseIsTheFirstFailingCheck : Obligations.IllegalCauseIsTheFirstFailingCheck := by
  intro w c
  have hop : w.extractLsb' 28 4 = (fieldsOf w).op := rfl
  rw [decode, decodeFields_eq_illegal_iff, hop, fmt_check_fails_iff, reservedZero_fieldsOf_iff, not_and_or]

/-- Settles O13: of every kind of event only a command could stop a step, and no command does. -/
theorem everyStepAnswersNext : Obligations.EveryStepAnswersNext := by
  intro s
  rcases step_cases s with ⟨hin, hs⟩ | ⟨e, rest, hin, hcases⟩
  · exact ⟨s, hs, by simp [hin]⟩
  · rw [hin, List.tail_cons]
    rcases hcases with ⟨w, i, -, -, hs⟩ | ⟨w, c, -, -, hs⟩ | ⟨-, hs⟩ | ⟨-, hs⟩ | ⟨-, hs⟩ | ⟨-, hs⟩
    · obtain ⟨t, ht, hinput, -⟩ := exec_keeps_err_input i (s.setInput rest)
      exact ⟨t, hs.trans ht, hinput⟩
    · exact ⟨_, hs, rfl⟩
    · exact ⟨_, hs, rfl⟩
    · exact ⟨_, hs, rfl⟩
    · exact ⟨_, hs, rfl⟩
    · exact ⟨_, hs, rfl⟩

/-- Settles O14, by induction over the list of commands. -/
theorem everyCommandSequenceRuns : Obligations.EveryCommandSequenceRuns := runCommands_keeps_err_input

/-- Settles O22: each register determines its unit, and STATUS with ILLCMD determines S. -/
theorem statusPortShowsTheFullState : Obligations.StatusPortShowsTheFullState := by
  intro s t h
  exact ⟨decstatReg_injective (h 1#3), encstatReg_injective (h 2#3), trcstatReg_injective (h 3#3),
    ErrorState.eq_of_registers (h 0#3) (h 4#3)⟩

/-- Settles O8: the step is the error action, which records into S or leaves it. -/
theorem illegalCommandOnlyRecordsTheFirst : Obligations.IllegalCommandOnlyRecordsTheFirst := by
  intro s w c rest hin hw
  rw [step_of_illegal hin hw, raiseIllegal, State.setInput_err]
  refine ⟨fun hill => ?_, fun hill => ?_⟩
  · rw [ErrorState.record_of_not_ill hill]
    rfl
  · rw [ErrorState.record_of_ill hill]
    rfl

/-- Settles O9: a command neither writes nor reads S. -/
theorem legalCommandsRunAfterAnError : Obligations.LegalCommandsRunAfterAnError := by
  intro i s e
  obtain ⟨t, ht, -, herr⟩ := exec_keeps_err_input i s
  exact ⟨t, ht, herr, exec_setErr ht e⟩

/-- Settles O10, the idle case of a step. -/
theorem idleStepChangesNothing : Obligations.IdleStepChangesNothing := fun _ => step_of_no_input

end Sys2Proof.Machine
end

section
/-! SUPPORT. The part of the block each unit owns (10_state.md R38): a command writes its own unit's part from that part
alone, so a list of commands does to a unit what the unit's own commands do (70_reset_and_hazards.md R251). -/

namespace Sys2Proof.Machine

/-- The values of what a unit owns: its state and its channel (R38). No unit owns nothing. -/
abbrev UnitPart : UnitName → Type
  | .pdec => Decoder × List Byte
  | .penc => Encoder × List Sample
  | .ptrc => Transcoder × List Byte
  | .noUnit => Unit

/-- What a unit owns in a state. -/
def State.part (s : State) : (u : UnitName) → UnitPart u
  | .pdec => (s.dec, s.dout)
  | .penc => (s.enc, s.sout)
  | .ptrc => (s.trc, s.tout)
  | .noUnit => ()

@[simp] theorem State.part_pdec (s : State) : s.part .pdec = (s.dec, s.dout) := rfl
@[simp] theorem State.part_penc (s : State) : s.part .penc = (s.enc, s.sout) := rfl
@[simp] theorem State.part_ptrc (s : State) : s.part .ptrc = (s.trc, s.tout) := rfl

section
variable {u : UnitName} (s : State)

theorem State.applyDec_part (hu : .pdec ≠ u) (r : Decoder × List Byte) : (s.applyDec r).part u = s.part u := by
  cases u with
  | pdec => exact absurd rfl hu
  | penc => rfl
  | ptrc => rfl
  | noUnit => rfl

theorem State.applyEnc_part (hu : .penc ≠ u) (r : Encoder × List Sample) : (s.applyEnc r).part u = s.part u := by
  cases u with
  | penc => exact absurd rfl hu
  | pdec => rfl
  | ptrc => rfl
  | noUnit => rfl

theorem State.applyTrc_part (hu : .ptrc ≠ u) (r : Transcoder × List Byte) : (s.applyTrc r).part u = s.part u := by
  cases u with
  | ptrc => exact absurd rfl hu
  | pdec => rfl
  | penc => rfl
  | noUnit => rfl

end

/-- A command keeps what every other unit owns. -/
theorem exec_keeps_other_part {u : UnitName} {i : Instr} (hi : i.unit ≠ u) (s : State) :
    ∃ t, exec i s = .next t ∧ t.part u = s.part u := by
  rcases exec_cases i s with ⟨-, hs⟩ | ⟨hpdec, r, hs⟩ | ⟨hpenc, r, hs⟩ | ⟨hptrc, r, hs⟩
  · exact ⟨_, hs, rfl⟩
  · exact ⟨_, hs, s.applyDec_part (hpdec ▸ hi) r⟩
  · exact ⟨_, hs, s.applyEnc_part (hpenc ▸ hi) r⟩
  · exact ⟨_, hs, s.applyTrc_part (hptrc ▸ hi) r⟩

/-- A command leaves its own unit's part as a function of that part alone. -/
theorem exec_own_part_congr {u : UnitName} {i : Instr} (hi : i.unit = u) {s s' : State} (h : s.part u = s'.part u) :
    ∃ t t', exec i s = .next t ∧ exec i s' = .next t' ∧ t.part u = t'.part u := by
  cases u with
  | pdec =>
    obtain ⟨g, hg⟩ := exec_pdec hi
    obtain ⟨hdec, hdout⟩ := Prod.mk.inj h
    exact ⟨_, _, hg s, hg s', by simp [hdec, hdout]⟩
  | penc =>
    obtain ⟨g, hg⟩ := exec_penc hi
    obtain ⟨henc, hsout⟩ := Prod.mk.inj h
    exact ⟨_, _, hg s, hg s', by simp [henc, hsout]⟩
  | ptrc =>
    obtain ⟨g, hg⟩ := exec_ptrc hi
    obtain ⟨htrc, htout⟩ := Prod.mk.inj h
    exact ⟨_, _, hg s, hg s', by simp [htrc, htout]⟩
  | noUnit => exact ⟨s, s', exec_noUnit hi s, exec_noUnit hi s', rfl⟩

/-- From states that agree on what a unit owns, a list of commands and the unit's own commands in it end in such states:
a command of the unit is run on both sides, any other on one side, where it keeps the unit's part. -/
theorem runCommands_filter_part {u : UnitName} {is : List Instr} {s s' t : State} (hpart : s.part u = s'.part u)
    (ht : runCommands is s = .next t) :
    ∃ t', runCommands (is.filter fun i => i.unit = u) s' = .next t' ∧ t.part u = t'.part u := by
  induction is generalizing s s' with
  | nil =>
    cases ht
    exact ⟨s', rfl, hpart⟩
  | cons i is ih =>
    by_cases hi : i.unit = u
    · obtain ⟨v, v', hv, hv', hown⟩ := exec_own_part_congr hi hpart
      rw [runCommands_cons hv] at ht
      rw [List.filter_cons_of_pos (by simpa using hi), runCommands_cons hv']
      exact ih hown ht
    · obtain ⟨v, hv, hkept⟩ := exec_keeps_other_part hi s
      rw [runCommands_cons hv] at ht
      rw [List.filter_cons_of_neg (by simpa using hi)]
      exact ih (hkept.trans hpart) ht

end Sys2Proof.Machine
end

section
/-! SUPPORT. A reset event, and a write to a unit after another to the same unit's state (70_reset_and_hazards.md R240,
R252). -/

namespace Sys2Proof.Machine

/-- A reset event leaves the reset state, with the events behind it still to come (R240; log 4). -/
theorem step_reset {s : State} {rest : List PortEvent} (h : s.input = .reset :: rest) :
    step s = .next { State.reset with input := rest } := step_of_input h

variable (s : State)

theorem State.setDec_applyDec (d : Decoder) (r : Decoder × List Byte) : (s.setDec d).applyDec r = s.applyDec r := rfl
theorem State.setEnc_applyEnc (e : Encoder) (r : Encoder × List Sample) : (s.setEnc e).applyEnc r = s.applyEnc r := rfl
theorem State.setTrc_applyTrc (q : Transcoder) (r : Transcoder × List Byte) :
    (s.setTrc q).applyTrc r = s.applyTrc r := rfl

end Sys2Proof.Machine
end

section
/-! PROOFS. The statements about reset, sessions and interleaving (70_reset_and_hazards.md). -/

namespace Sys2Proof.Machine

/-- Settles O52: each unit's commands alone leave what the unit owns as the whole list does. -/
theorem interleavingLaw : Obligations.InterleavingLaw := by
  intro is s
  obtain ⟨t, ht, -⟩ := runCommands_keeps_err_input is s
  obtain ⟨td, htd, hpdec⟩ := runCommands_filter_part (u := .pdec) rfl ht
  obtain ⟨te, hte, hpenc⟩ := runCommands_filter_part (u := .penc) rfl ht
  obtain ⟨tt, htt, hptrc⟩ := runCommands_filter_part (u := .ptrc) rfl ht
  obtain ⟨hdec, hdout⟩ := Prod.mk.inj hpdec
  obtain ⟨henc, hsout⟩ := Prod.mk.inj hpenc
  obtain ⟨htrc, htout⟩ := Prod.mk.inj hptrc
  exact ⟨t, td, te, tt, ht, htd, hte, htt, hdec, hdout, henc, hsout, htrc, htout⟩

/-- Settles O54, by what the host does next: a command keeps S and only appends, an illegal word does not replace a
recorded error, and a drain changes its own channel alone. -/
theorem onlyResetClears : Obligations.OnlyResetClears := by
  intro s t hs hreset
  rcases step_cases s with ⟨-, h⟩ | ⟨e, rest, hin, hcases⟩
  · cases h.symm.trans hs
    exact ⟨fun _ => rfl, fun _ => List.prefix_rfl, fun _ => List.prefix_rfl, fun _ => List.prefix_rfl⟩
  · rw [hin, List.head?_cons] at hreset ⊢
    rcases hcases with ⟨w, i, -, -, h⟩ | ⟨w, c, -, -, h⟩ | ⟨he, h⟩ | ⟨he, h⟩ | ⟨he, h⟩ | ⟨he, -⟩
    · obtain ⟨v, hv, -, herr⟩ := exec_keeps_err_input i (s.setInput rest)
      obtain ⟨v', hv', hext⟩ := exec_extends i (s.setInput rest)
      cases hv.symm.trans hv'
      cases hv.symm.trans (h.symm.trans hs)
      exact ⟨fun _ => herr, fun _ => hext.dout, fun _ => hext.tout, fun _ => hext.sout⟩
    · cases h.symm.trans hs
      exact ⟨fun hill => ErrorState.record_of_ill hill c w,
        fun _ => List.prefix_rfl, fun _ => List.prefix_rfl, fun _ => List.prefix_rfl⟩
    · cases h.symm.trans hs
      exact ⟨fun _ => rfl, fun hd => absurd (congrArg some he) hd, fun _ => List.prefix_rfl, fun _ => List.prefix_rfl⟩
    · cases h.symm.trans hs
      exact ⟨fun _ => rfl, fun _ => List.prefix_rfl, fun hd => absurd (congrArg some he) hd, fun _ => List.prefix_rfl⟩
    · cases h.symm.trans hs
      exact ⟨fun _ => rfl, fun _ => List.prefix_rfl, fun _ => List.prefix_rfl, fun hd => absurd (congrArg some he) hd⟩
    · exact absurd (congrArg some he) hreset

/-- Settles O12, the reset case of a step. -/
theorem resetEventResetsEverything : Obligations.ResetEventResetsEverything := fun _ _ => step_reset

/-- Settles O17: each raw START writes back the state its unit has after reset, and emits nothing. -/
theorem resetActsAsTheRawStarts : Obligations.ResetActsAsTheRawStarts :=
  ⟨congrArg Host.Outcome.next (State.applyDec_self State.reset),
    congrArg Host.Outcome.next (State.applyEnc_self State.reset),
    fun _ => congrArg Host.Outcome.next (State.applyTrc_self State.reset)⟩

/-- Settles O53: a START writes over its unit's state and reads nothing of it. -/
theorem startEndsTheSession : Obligations.StartEndsTheSession := fun f r s =>
  ⟨fun d => ⟨_, exec_decStart f r s, congrArg Host.Outcome.next (s.setDec_applyDec d _)⟩,
    fun e => ⟨_, exec_encStart r s, congrArg Host.Outcome.next (s.setEnc_applyEnc e _)⟩,
    fun q => ⟨_, exec_trcStart f r s, congrArg Host.Outcome.next (s.setTrc_applyTrc q _)⟩⟩

end Sys2Proof.Machine
end
